-- ==== Sys2Proof/Word.lean ====
section
/-! DEFINITION. The bit widths the spec names and the one narrowing `s16` (spec/00_scope.md section 4). -/

namespace Sys2Proof

/-- A 32-bit host word: a command word, a control register, `SA` and `SB` (R26, R35, R36, R80). -/
abbrev Word := BitVec 32

/-- One byte of the byte buffer BUF (R38). -/
abbrev Byte := BitVec 8

/-- One stored coefficient: a 16-bit two's-complement integer, read as a number by `BitVec.toInt` (R12, R20). -/
abbrev Coef := BitVec 16

/-- `s16(v)` of spec/00_scope.md section 4: the 16-bit wrap of an integer, the unique value in [−32768, 32767]
congruent to `v` modulo 2^16 (R12). -/
def s16 (v : Int) : Coef := BitVec.ofInt 16 v

end Sys2Proof
end

