-- ==== Sys2Proof/Config.lean ====
section
/-! DEFINITION. The parameters a build fixes (spec/00_scope.md R1 to R10) and the build instance itself. The model
leaves no value free: every open value of the spec is either data of the state (K, BASE, the schedule) or "no value"
(R21), so nothing here is opaque. -/

namespace Sys2Proof.Config

/-- N, the ring dimension: the number of coefficients of a polynomial (R1). -/
abbrev ringDim : Nat := 256

/-- Q, the modulus (R2). -/
abbrev modulus : Int := 3329

/-- QINV = Q^-1 mod R with R = 2^16 (R3). -/
abbrev qinv : Int := 62209

/-- NP, the number of polynomial slots (R6). -/
abbrev numSlots : Nat := 32

/-- BUF_BYTES, the size of the byte buffer (R7). -/
abbrev bufBytes : Nat := 4096

/-- The size of the register window in bytes (R60). -/
abbrev windowBytes : Nat := 0x8000

/-- One build instance: the two parameters the spec leaves to the build and the platform and that a model takes as
arguments (R5, R60; U4 and U5 of spec/93_implementation_defined.md). They are data of the state that no step changes
(R10), so a statement about every state is a statement about every build. DESIGN CHOICE (log entry 3): the bus address has 32
bits. -/
structure Build where
  /-- K, the module rank: 1 to 15, the four bits of PARAM.K (R5, R34). -/
  k : BitVec 4
  /-- BASE, the bus address of the register window (R60). -/
  base : BitVec 32
  deriving DecidableEq, Repr

/-- The build `State.reset` starts. DESIGN CHOICE (log entry 2): K = 3, the rank of the spec's derived vectors, and
BASE = 0; unsafe for a claim about `State.reset` alone. -/
def defaultBuild : Build := { k := 3, base := 0 }

/-- The value of the read-only register ID: "ALC" and version 1 (R33). -/
def idValue : Word := 0x414C4301

/-- The value of the read-only register PARAM, field by field from bit 31 down: QV, LOG2BUF, NP, ETA, K (R34). -/
def paramValue (b : Build) : Word := 0xD01#12 ++ 12#4 ++ 32#8 ++ 2#4 ++ b.k

end Sys2Proof.Config
end

