-- ==== Sys2Proof/Machine/State.lean ====
section
/-! DEFINITION. The machine's state as plain data, the two reasons a step can stop, and the state after power-on reset
(spec/10_state.md R20 to R42, spec/70_reset_and_hazards.md R290). -/

namespace Sys2Proof.Machine

/-! ## Storage that can be unspecified -/

/-- A slot as it is stored: 256 coefficients, each either a value or unspecified. R21: a model gives an unspecified
coefficient no value (log entry 1). -/
abbrev SlotData := Vector (Option Coef) 256

/-- The slot file `P[0]` to `P[31]` (R20). -/
abbrev SlotFile := Vector SlotData 32

/-- A polynomial whose 256 coefficients all have a value: what a command computes with (R1, R12). -/
abbrev Poly := Vector Coef 256

/-- BUF as (address, byte) pairs, addresses strictly rising and below 4096. A byte that is not listed is unspecified, that
is, it has no value (R21, R38). -/
abbrev Memory := List Host.Cell

/-- A slot none of whose coefficients is specified (R21, R42). -/
def SlotData.unspecified : SlotData := Vector.replicate 256 none

/-! ## What happens at the block, in order -/

/-- The width of a host bus access. Only 32-bit accesses are defined (R62); `wide` stands for anything wider, a burst
among them (U3 of spec/93_implementation_defined.md; log entry 13). -/
inductive AccessSize where
  | byte
  | half
  | word
  | wide
  deriving DecidableEq, Repr

/-- One host bus transaction (R62, R69): its bus address, its width, and the value of a write or `none` for a read. -/
structure Transaction where
  addr : BitVec 32
  size : AccessSize
  data : Option Word
  deriving DecidableEq, Repr

/-- One event of the block's single total order (R258): a host transaction, the engine's completion step (R297, R301), or a
power-on reset asserted and released by the platform (R290). -/
inductive Event where
  | transaction (t : Transaction)
  | complete
  | powerOnReset
  deriving DecidableEq, Repr

/-! ## The state -/

/-- Everything the spec gives the machine. STATUS.BUSY, STATUS.IRQ and the words of CTRL, STATUS, ID and PARAM are views
computed from it (Machine/Flags.lean, Machine/Bus.lean), so that nothing is stored twice. -/
structure State where
  /-- The build parameters K and BASE (R5, R60); no step changes them (R10). -/
  build : Config.Build
  /-- The polynomial slot file `P` (R20). -/
  slots : SlotFile
  /-- The byte buffer `BUF` (R38). -/
  buf : Memory
  /-- The scalar operand register SA (R35). -/
  sa : Word
  /-- The scalar operand register SB (R36). -/
  sb : Word
  /-- The 16-bit scalar result register SR (R37). -/
  sr : Coef
  /-- CTRL.IE_DONE (R28). -/
  ieDone : Bool
  /-- CTRL.IE_ERR (R28). -/
  ieErr : Bool
  /-- STATUS.DONE (R29). -/
  done : Bool
  /-- STATUS.ERR (R29). -/
  err : Bool
  /-- STATUS.ERRCODE (R29, R251). -/
  errCode : BitVec 4
  /-- ERRINFO (R31). -/
  errInfo : Word
  /-- CMD: the last word written while BUSY = 0 (R30). -/
  cmd : Word
  /-- CMDCOUNT: the number of completed commands modulo 2^32 (R32). -/
  cmdCount : Word
  /-- The in-flight command of R40, as the word that was accepted; `none` when no command is in flight. STATUS.BUSY is 1
  exactly when there is one (log entry 4). -/
  inFlight : Option Word
  /-- THE MODEL'S OWN FIELD (log entry 5): the events still to come at the block, in their total order (R258, R297). -/
  events : List Event
  /-- THE MODEL'S OWN FIELD (log entry 6): the value the last host read returned, `none` before the first one. -/
  readData : Option Word
  deriving DecidableEq, Repr

/-- Why the machine stops with a fault. -/
inductive Fault where
  /-- The model fault `ReadUnspecified` of R21 and R255: a command source or a host read of the BUF or POLY window reads a
  location that has no value. Raised by `run` (Machine/Ops.lean) and `hostRead` (Machine/Bus.lean). Safe: the hardware
  returns some value there and goes on, and the spec forbids the model to pick one. -/
  | readUnspecified
  /-- A transaction at a bus address outside the 32 KiB window at BASE, an address that does not exist in the block's one
  address space (R60). Raised by `transact` (Machine/Bus.lean). Safe: the spec gives the block no such transaction (log entry 9). -/
  | outsideWindow
  deriving DecidableEq, Repr

/-- Why a step is refused. -/
inductive Refusal where
  /-- An instruction with no meaning yet, by its mnemonic. Raised only by a refused arm of `exec`; no arm is refused now.
  Safe. -/
  | notModelled (mnemonic : String)
  /-- A host transaction that is not an aligned 32-bit access, which R62 makes a model refuse. Raised by `transact`
  (Machine/Bus.lean). Safe. -/
  | unsupportedAccess
  /-- The engine was handed a word no CMD write can have accepted: its encoding or its ranges are illegal (R88, R252).
  Raised by `run` (Machine/Ops.lean) and `step`; no state that meets `State.Inv` (Sys2Proof/Safety.lean) raises it.
  Safe (log entry 10). -/
  | illegalCommand
  deriving DecidableEq, Repr

/-- The state after power-on reset of a build, with nothing to come (R42, R290). -/
def State.resetOf (b : Config.Build) : State where
  build := b
  slots := Vector.replicate 32 SlotData.unspecified
  buf := []
  sa := 0
  sb := 0
  sr := 0
  ieDone := false
  ieErr := false
  done := false
  err := false
  errCode := 0
  errInfo := 0
  cmd := 0
  cmdCount := 0
  inFlight := none
  events := []
  readData := none

/-- The machine right after power-on reset (R42, R290), on the build of log entry 2. -/
def State.reset : State := State.resetOf Config.defaultBuild

end Sys2Proof.Machine
end

