-- ==== Sys2Proof/Syntax.lean ====
section
/-! DEFINITION. The 20 commands of the ALAC command set, version 1, as syntax (spec/30_encoding.md R86), and the
names of the eight errors of the host interface (spec/60_exceptions.md R251). -/

namespace Sys2Proof

/-- A slot field of a command word, `zext_5`, 0 to 31 (R85). -/
abbrev SlotNo := BitVec 5

/-- The field ADDR of a command word, a BUF byte address, `zext_12`, 0 to 4095 (R85). -/
abbrev BufAddr := BitVec 12

/-- The field D of a command word, the compression width, `zext_4` (R85). -/
abbrev Width := BitVec 4

/-- The commands, one constructor per row of spec/opcode_table.json. `v` is the vector flag V (R80), absent where V must
be 0; `rd`, `rs1`, `rs2`, `p`, `d` and `addr` are the fields of R82 to R84. -/
inductive Instr where
  /-- NOP (R124). -/
  | nop
  /-- MONTRED (R125). -/
  | montred
  /-- BARRED (R126). -/
  | barred
  /-- CSUBQ (R127). -/
  | csubq
  /-- FQMUL (R128). -/
  | fqmul
  /-- PADD (R190). -/
  | padd (v : Bool) (rd rs1 rs2 : SlotNo)
  /-- PSUB (R191). -/
  | psub (v : Bool) (rd rs1 rs2 : SlotNo)
  /-- PREDUCE (R192). -/
  | preduce (v : Bool) (rd rs1 : SlotNo)
  /-- PCSUBQ (R193). -/
  | pcsubq (v : Bool) (rd rs1 : SlotNo)
  /-- TOMONT (R194). -/
  | tomont (v : Bool) (rd rs1 : SlotNo)
  /-- NTT (R153). -/
  | ntt (v : Bool) (rd rs1 : SlotNo)
  /-- INVNTT (R155). -/
  | invntt (v : Bool) (rd rs1 : SlotNo)
  /-- PMUL (R157). -/
  | pmul (v : Bool) (rd rs1 rs2 : SlotNo)
  /-- PMAC (R158). -/
  | pmac (v : Bool) (rd rs1 rs2 : SlotNo)
  /-- PVDOT (R233). -/
  | pvdot (rd rs1 rs2 : SlotNo)
  /-- PACK12 (R195). -/
  | pack12 (v : Bool) (p : SlotNo) (addr : BufAddr)
  /-- UNPACK12 (R196). -/
  | unpack12 (v : Bool) (p : SlotNo) (addr : BufAddr)
  /-- COMPRESS (R199). -/
  | compress (v : Bool) (p : SlotNo) (d : Width) (addr : BufAddr)
  /-- DECOMPRESS (R200). -/
  | decompress (v : Bool) (p : SlotNo) (d : Width) (addr : BufAddr)
  /-- CBD2 (R181). -/
  | cbd2 (v : Bool) (p : SlotNo) (addr : BufAddr)
  deriving DecidableEq, Repr

/-- The errors of the host interface, by the names of R251's table. -/
inductive CmdError where
  | illegalOpcode
  | illegalV
  | reservedBits
  | illegalD
  | slotRange
  | bufRange
  | cmdWhileBusy
  | accessWhileBusy
  deriving DecidableEq, Repr

end Sys2Proof
end

