-- ==== Sys2Proof/Machine/Flags.lean ====
section
/-! DEFINITION. The flags and the words made of them: BUSY, IRQ, STATUS and CTRL (spec/10_state.md R25, R28, R29, R41,
spec/60_exceptions.md R256), and the numbers of the errors (R251). The block's only flags are BUSY, DONE and ERR: no
command sets a carry, overflow, zero or sign flag (R25). -/

namespace Sys2Proof.Machine

/-- STATUS.BUSY: a command is in flight (R29, R40). -/
def State.busy (s : State) : Bool := s.inFlight.isSome

/-- The interrupt output, a level computed from STATUS and CTRL (R41, R256). -/
def State.irq (s : State) : Bool := (s.done && s.ieDone) || (s.err && s.ieErr)

/-- The word a read of STATUS returns, field by field from bit 31 down (R29). -/
def statusWord (s : State) : Word :=
  0#19 ++ BitVec.ofBool s.irq ++ s.errCode ++ 0#5 ++ BitVec.ofBool s.err ++ BitVec.ofBool s.done ++ BitVec.ofBool s.busy

/-- The word a read of CTRL returns: SRST and the reserved bits read 0 (R28). -/
def ctrlWord (s : State) : Word := 0#30 ++ BitVec.ofBool s.ieErr ++ BitVec.ofBool s.ieDone

/-- The number of an error in STATUS.ERRCODE (R251). -/
def errorCode : CmdError → BitVec 4
  | .illegalOpcode => 1
  | .illegalV => 2
  | .reservedBits => 3
  | .illegalD => 4
  | .slotRange => 5
  | .bufRange => 6
  | .cmdWhileBusy => 7
  | .accessWhileBusy => 8

/-- The ERRINFO of error 8, `{W, 16'b0, off[14:0]}` (R31). -/
def accessInfo (write : Bool) (off : Nat) : Word := BitVec.ofBool write ++ 0#16 ++ BitVec.ofNat 15 off

end Sys2Proof.Machine
end

