-- ==== Sys2Proof/Decode.lean ====
section
/-! DEFINITION. Command words to commands and back (spec/30_encoding.md R80 to R89) and the checks of a CMD write in
their order (spec/60_exceptions.md R252). A command is exactly one 32-bit word, so there is no length logic (R80). -/

namespace Sys2Proof

/-! ## Fields of a command word -/

/-- OPC, bits 31:26 (R80). -/
def opcField (w : Word) : BitVec 6 := w.extractLsb' 26 6

/-- V, bit 25 (R80). -/
def vField (w : Word) : Bool := w.getLsbD 25

/-- RD, or P in Formats B and BD, bits 24:20 (R82 to R84). -/
def rdField (w : Word) : SlotNo := w.extractLsb' 20 5

/-- RS1, bits 19:15 (R82, R83). -/
def rs1Field (w : Word) : SlotNo := w.extractLsb' 15 5

/-- RS2, bits 14:10 (R82). -/
def rs2Field (w : Word) : SlotNo := w.extractLsb' 10 5

/-- D, bits 19:16 (R84). -/
def dField (w : Word) : Width := w.extractLsb' 16 4

/-- ADDR, bits 11:0 (R84). -/
def addrField (w : Word) : BufAddr := w.extractLsb' 0 12

/-! ## Opcodes and formats -/

/-- The formats of R81 to R84; BD is the sub-format of B with a compression width. -/
inductive Format where
  | s
  | p3
  | p2
  | b
  | bd
  deriving DecidableEq, Repr

/-- The opcode map of R86: the format of an assigned opcode, and none for an unassigned one. -/
def formatOf (opc : BitVec 6) : Option Format :=
  match opc.toNat with
  | 0x00 => some .s
  | 0x01 => some .s
  | 0x02 => some .s
  | 0x03 => some .s
  | 0x04 => some .s
  | 0x08 => some .p3
  | 0x09 => some .p3
  | 0x0A => some .p2
  | 0x0B => some .p2
  | 0x0C => some .p2
  | 0x10 => some .p2
  | 0x11 => some .p2
  | 0x12 => some .p3
  | 0x13 => some .p3
  | 0x14 => some .p3
  | 0x18 => some .b
  | 0x19 => some .b
  | 0x1A => some .bd
  | 0x1B => some .bd
  | 0x1C => some .b
  | _ => none

/-- The column V of R86: V = 1 is illegal on the scalar commands and on PVDOT. -/
def vLegal (opc : BitVec 6) : Bool := !(opc.toNat ≤ 0x04 || opc.toNat == 0x14)

/-- The reserved bits of a format (R252's `reserved_mask`). -/
def reservedMask : Format → Word
  | .s => 0x01FFFFFF
  | .p3 => 0x000003FF
  | .p2 => 0x00007FFF
  | .b => 0x0000F000
  | .bd => 0x0000F000

/-- Check 4 of R252: D must be 0 in Format B and 1 to 11 in Format BD; the other formats have no field D. -/
def dLegal (f : Format) (d : Width) : Bool :=
  match f with
  | .b => d == 0
  | .bd => 1 ≤ d.toNat && d.toNat ≤ 11
  | _ => true

/-- The command an opcode and the fields of its word stand for (R86); `none` for an unassigned opcode. -/
def assemble (w : Word) : Option Instr :=
  match (opcField w).toNat with
  | 0x00 => some .nop
  | 0x01 => some .montred
  | 0x02 => some .barred
  | 0x03 => some .csubq
  | 0x04 => some .fqmul
  | 0x08 => some (.padd (vField w) (rdField w) (rs1Field w) (rs2Field w))
  | 0x09 => some (.psub (vField w) (rdField w) (rs1Field w) (rs2Field w))
  | 0x0A => some (.preduce (vField w) (rdField w) (rs1Field w))
  | 0x0B => some (.pcsubq (vField w) (rdField w) (rs1Field w))
  | 0x0C => some (.tomont (vField w) (rdField w) (rs1Field w))
  | 0x10 => some (.ntt (vField w) (rdField w) (rs1Field w))
  | 0x11 => some (.invntt (vField w) (rdField w) (rs1Field w))
  | 0x12 => some (.pmul (vField w) (rdField w) (rs1Field w) (rs2Field w))
  | 0x13 => some (.pmac (vField w) (rdField w) (rs1Field w) (rs2Field w))
  | 0x14 => some (.pvdot (rdField w) (rs1Field w) (rs2Field w))
  | 0x18 => some (.pack12 (vField w) (rdField w) (addrField w))
  | 0x19 => some (.unpack12 (vField w) (rdField w) (addrField w))
  | 0x1A => some (.compress (vField w) (rdField w) (dField w) (addrField w))
  | 0x1B => some (.decompress (vField w) (rdField w) (dField w) (addrField w))
  | 0x1C => some (.cbd2 (vField w) (rdField w) (addrField w))
  | _ => none

/-! ## The decoder -/

/-- The command a word encodes, or the first of the errors 1 to 4 that its bits give, in the order of R252. -/
def decode (w : Word) : Except CmdError Instr :=
  match formatOf (opcField w), assemble w with
  | some f, some i =>
    if vField w && !vLegal (opcField w) then .error .illegalV
    else if w &&& reservedMask f ≠ 0 then .error .reservedBits
    else if !dLegal f (dField w) then .error .illegalD
    else .ok i
  | _, _ => .error .illegalOpcode

/-- n, the number of repetitions of a command: K if V = 1 and 1 otherwise (R230, R252). -/
def repeatCount (k : BitVec 4) (v : Bool) : Nat := if v then k.toNat else 1

/-- L, the length in bytes of one polynomial's image in BUF, for the commands that access BUF (R65, R231, R252). -/
def imageBytes : Instr → Nat
  | .pack12 _ _ _ => 384
  | .unpack12 _ _ _ => 384
  | .compress _ _ d _ => 32 * d.toNat
  | .decompress _ _ d _ => 32 * d.toNat
  | .cbd2 _ _ _ => 128
  | _ => 0

/-- The slot ranges that check 5 of R252 looks at: the first slot and the number of slots of each. For PVDOT they are the
two source ranges only (R232). -/
def slotRanges (k : BitVec 4) : Instr → List (Nat × Nat)
  | .nop => []
  | .montred => []
  | .barred => []
  | .csubq => []
  | .fqmul => []
  | .padd v rd rs1 rs2 => [rd, rs1, rs2].map fun r => (r.toNat, repeatCount k v)
  | .psub v rd rs1 rs2 => [rd, rs1, rs2].map fun r => (r.toNat, repeatCount k v)
  | .preduce v rd rs1 => [rd, rs1].map fun r => (r.toNat, repeatCount k v)
  | .pcsubq v rd rs1 => [rd, rs1].map fun r => (r.toNat, repeatCount k v)
  | .tomont v rd rs1 => [rd, rs1].map fun r => (r.toNat, repeatCount k v)
  | .ntt v rd rs1 => [rd, rs1].map fun r => (r.toNat, repeatCount k v)
  | .invntt v rd rs1 => [rd, rs1].map fun r => (r.toNat, repeatCount k v)
  | .pmul v rd rs1 rs2 => [rd, rs1, rs2].map fun r => (r.toNat, repeatCount k v)
  | .pmac v rd rs1 rs2 => [rd, rs1, rs2].map fun r => (r.toNat, repeatCount k v)
  | .pvdot _ rs1 rs2 => [rs1, rs2].map fun r => (r.toNat, k.toNat)
  | .pack12 v p _ => [(p.toNat, repeatCount k v)]
  | .unpack12 v p _ => [(p.toNat, repeatCount k v)]
  | .compress v p _ _ => [(p.toNat, repeatCount k v)]
  | .decompress v p _ _ => [(p.toNat, repeatCount k v)]
  | .cbd2 v p _ => [(p.toNat, repeatCount k v)]

/-- The BUF range that check 6 of R252 looks at: the first byte and the number of bytes, n·L (R65, R231). -/
def bufRange (k : BitVec 4) : Instr → Option (Nat × Nat)
  | .pack12 v p a => some (a.toNat, repeatCount k v * imageBytes (.pack12 v p a))
  | .unpack12 v p a => some (a.toNat, repeatCount k v * imageBytes (.unpack12 v p a))
  | .compress v p d a => some (a.toNat, repeatCount k v * imageBytes (.compress v p d a))
  | .decompress v p d a => some (a.toNat, repeatCount k v * imageBytes (.decompress v p d a))
  | .cbd2 v p a => some (a.toNat, repeatCount k v * imageBytes (.cbd2 v p a))
  | _ => none

/-- Check 5 of R252: no slot range passes slot 31 (R232). -/
def slotsFit (k : BitVec 4) (i : Instr) : Bool :=
  (slotRanges k i).all fun r => r.1 + r.2 ≤ Config.numSlots

/-- Check 6 of R252: the BUF range ends at or before byte 4095 (R65, R232). -/
def bufFits (k : BitVec 4) (i : Instr) : Bool :=
  match bufRange k i with
  | some (a, len) => a + len ≤ Config.bufBytes
  | none => true

/-- The width of COMPRESS and DECOMPRESS is 1 to 11 (R9, R84). -/
def widthLegal : Instr → Bool
  | .compress _ _ d _ => dLegal .bd d
  | .decompress _ _ d _ => dLegal .bd d
  | _ => true

/-- The six checks of a CMD write made while BUSY = 0, in the order of R252: the command, or the first error. -/
def issueCheck (k : BitVec 4) (w : Word) : Except CmdError Instr :=
  match decode w with
  | .error e => .error e
  | .ok i =>
    if !slotsFit k i then .error .slotRange
    else if !bufFits k i then .error .bufRange
    else .ok i

/-! ## The encoder -/

/-- Format S (R81). -/
def encodeS (opc : BitVec 6) : Word := opc ++ 0#1 ++ 0#25

/-- Format P3 (R82). -/
def encodeP3 (opc : BitVec 6) (v : Bool) (rd rs1 rs2 : SlotNo) : Word :=
  opc ++ BitVec.ofBool v ++ rd ++ rs1 ++ rs2 ++ 0#10

/-- Format P2 (R83). -/
def encodeP2 (opc : BitVec 6) (v : Bool) (rd rs1 : SlotNo) : Word :=
  opc ++ BitVec.ofBool v ++ rd ++ rs1 ++ 0#15

/-- Formats B and BD (R84). -/
def encodeB (opc : BitVec 6) (v : Bool) (p : SlotNo) (d : Width) (addr : BufAddr) : Word :=
  opc ++ BitVec.ofBool v ++ p ++ d ++ 0#4 ++ addr

/-- The word of a command (R81 to R86). -/
def encode : Instr → Word
  | .nop => encodeS 0x00
  | .montred => encodeS 0x01
  | .barred => encodeS 0x02
  | .csubq => encodeS 0x03
  | .fqmul => encodeS 0x04
  | .padd v rd rs1 rs2 => encodeP3 0x08 v rd rs1 rs2
  | .psub v rd rs1 rs2 => encodeP3 0x09 v rd rs1 rs2
  | .preduce v rd rs1 => encodeP2 0x0A v rd rs1
  | .pcsubq v rd rs1 => encodeP2 0x0B v rd rs1
  | .tomont v rd rs1 => encodeP2 0x0C v rd rs1
  | .ntt v rd rs1 => encodeP2 0x10 v rd rs1
  | .invntt v rd rs1 => encodeP2 0x11 v rd rs1
  | .pmul v rd rs1 rs2 => encodeP3 0x12 v rd rs1 rs2
  | .pmac v rd rs1 rs2 => encodeP3 0x13 v rd rs1 rs2
  | .pvdot rd rs1 rs2 => encodeP3 0x14 false rd rs1 rs2
  | .pack12 v p addr => encodeB 0x18 v p 0 addr
  | .unpack12 v p addr => encodeB 0x19 v p 0 addr
  | .compress v p d addr => encodeB 0x1A v p d addr
  | .decompress v p d addr => encodeB 0x1B v p d addr
  | .cbd2 v p addr => encodeB 0x1C v p 0 addr

/-! ## The opcode table's words -/

/-- The command word of an opcode-table word of `nbits` bits: every bit above them is 0. -/
def tableWord (nbits w : Nat) : Word := BitVec.ofNat 32 (w % 2 ^ nbits)

/-- The command the decoder reads from a table word, none where it refuses. -/
def decodeTableWord (nbits w : Nat) : Option Instr :=
  match decode (tableWord nbits w) with
  | .ok i => some i
  | .error _ => none

end Sys2Proof
end

