-- ==== Sys2Proof/WellFormed.lean ====
section
/-! DEFINITION. Which commands a build of rank K accepts: exactly the operand checks 4, 5 and 6 of
spec/60_exceptions.md R252, which spec/44_polyvec.md R232 and spec/20_memory.md R65 state. -/

namespace Sys2Proof

/-- A command is well formed on a build of rank `k` when its width is legal, its slot ranges end by slot 31 and its BUF
range ends by byte 4095. The encodings of R86 rule out everything else that R88 calls illegal. -/
def Instr.wellFormed (k : BitVec 4) (i : Instr) : Bool := widthLegal i && slotsFit k i && bufFits k i

end Sys2Proof
end

