-- ==== Sys2Proof/Machine/Ops.lean ====
section
/-! DEFINITION. The named operations every command and every host transaction is made of: BUF and the slot file, recording
and clearing an error (this hardware's whole exception model: spec/60_exceptions.md R250 to R259), accepting, fetching and
completing a command, aborting it, and the two resets. -/

namespace Sys2Proof.Machine

/-! ## BUF -/

/-- The canonical form of BUF: addresses strictly rising, each below 4096 (R38). A listed byte is never what an unlisted
address reads as, since an unlisted one has no value. -/
abbrev Memory.wf (m : Memory) : Prop :=
  m.Pairwise (fun c d => c.1 < d.1) ∧ ∀ c ∈ m, c.1 < Config.bufBytes

/-- The byte at an address; `none` where it is unspecified (R21). -/
def Memory.read : Memory → Nat → Option Byte
  | [], _ => none
  | c :: m, a => if a = c.1 then some c.2 else Memory.read m a

/-- `BufRead(addr, n)`: the `n` bytes from `a` up; `none` where one of them is unspecified (spec/00_scope.md section 4). -/
def Memory.readBytes (m : Memory) : Nat → Nat → Option (List Byte)
  | _, 0 => some []
  | a, n + 1 =>
    match Memory.read m a, Memory.readBytes m (a + 1) n with
    | some b, some bs => some (b :: bs)
    | _, _ => none

/-- The cells of bytes at consecutive addresses from `a` up. -/
def cellsFrom : Nat → List Byte → Memory
  | _, [] => []
  | a, b :: bs => (a, b) :: cellsFrom (a + 1) bs

/-- `BufWrite(addr, n, bytes)`: the bytes from `a` up are written and every other byte stays (spec/00_scope.md section 4). -/
def Memory.writeBytes (m : Memory) (a : Nat) (bs : List Byte) : Memory :=
  m.filter (fun c => c.1 < a) ++ cellsFrom a bs ++ m.filter (fun c => a + bs.length ≤ c.1)

/-- Make the `n` bytes from `a` up unspecified (R293). -/
def Memory.unspecify (m : Memory) (a n : Nat) : Memory :=
  m.filter fun c => !(a ≤ c.1 && c.1 < a + n)

/-! ## The slot file -/

/-- A function on every entry of a vector. -/
def mapVec {α β : Type} {n : Nat} (f : α → β) (v : Vector α n) : Vector β n :=
  ⟨(v.toList.map f).toArray, by simp⟩

/-- A function on the entries of two vectors, place by place. -/
def zipVec {α β γ : Type} {n : Nat} (f : α → β → γ) (v : Vector α n) (w : Vector β n) : Vector γ n :=
  ⟨(List.zipWith f v.toList w.toList).toArray, by simp⟩

/-- The polynomial of a list of coefficients. Every use has a list of exactly 256 (Sys2Proof/Laws/Poly.lean), so nothing is
cut off and nothing is filled up. -/
def Poly.ofList (l : List Coef) : Poly := ⟨(l.takeD 256 0).toArray, List.takeD_length 256 l 0⟩

/-- The values of a list of optional values; `none` where one is missing. -/
def allSome {α : Type} : List (Option α) → Option (List α)
  | [] => some []
  | none :: _ => none
  | some a :: l => (allSome l).map fun as => a :: as

/-- A polynomial as it is stored: every coefficient specified. -/
def SlotData.ofPoly (p : Poly) : SlotData := mapVec some p

/-- The polynomial in a slot; `none` where one of its coefficients is unspecified (R21). -/
def SlotData.toPoly (d : SlotData) : Option Poly := (allSome d.toList).map Poly.ofList

/-- The polynomial in slot `r`; `none` where a coefficient is unspecified (R21) and for `r` past slot 31, where there is no
slot (R20). -/
def SlotFile.readPoly (f : SlotFile) (r : Nat) : Option Poly := f[r]?.bind SlotData.toPoly

/-- Write all of slot `r`. Past slot 31 there is nothing to write. -/
def SlotFile.writeSlot (f : SlotFile) (r : Nat) (d : SlotData) : SlotFile := f.setIfInBounds r d

/-- Coefficient `i` of slot `r`: one half of a word of the POLY window (R64); `none` where it is unspecified. -/
def SlotFile.readCoef (f : SlotFile) (r i : Nat) : Option Coef := f[r]?.bind fun d => d[i]?.join

/-- `P[r][i] <- c` (R64). -/
def SlotFile.writeCoef (f : SlotFile) (r i : Nat) (c : Coef) : SlotFile :=
  match f[r]? with
  | some d => SlotFile.writeSlot f r (d.setIfInBounds i (some c))
  | none => f

/-- Make the `n` slots from `r` up unspecified (R293). -/
def SlotFile.unspecify (f : SlotFile) : Nat → Nat → SlotFile
  | _, 0 => f
  | r, n + 1 => SlotFile.unspecify (SlotFile.writeSlot f r SlotData.unspecified) (r + 1) n

/-! ## Recording an error, and clearing it

This is the block's whole exception entry and return: it has no program counter, saves nothing and changes no mode
(R250, R259). The interrupt level follows from the state (R256). -/

/-- `raise CmdError(code, info)`: the first error is kept, later ones are lost (R253). -/
def raiseError (e : CmdError) (info : Word) (s : State) : State :=
  if s.err then s else { s with err := true, errCode := errorCode e, errInfo := info }

/-- The host's W1C write of STATUS.ERR, which clears ERRCODE and ERRINFO with it (R29, R254). -/
def clearError (s : State) : State := { s with err := false, errCode := 0, errInfo := 0 }

/-! ## A command's life: accept, fetch, complete, abort -/

/-- `accept(w)`: BUSY ← 1 and the command is in flight (R300). CMD and DONE are written by the CMD write itself. -/
def accept (w : Word) (s : State) : State := { s with inFlight := some w }

/-- The command the engine completes next, with what its decoder says of it; `none` when it is idle (R40, R265). -/
def fetch (s : State) : Option (Except CmdError Instr) := s.inFlight.map decode

/-- The end of the completion step: BUSY ← 0, DONE ← 1, CMDCOUNT + 1 modulo 2^32, nothing in flight (R301). -/
def complete (s : State) : State := { s with inFlight := none, done := true, cmdCount := s.cmdCount + 1 }

/-- The completion step of a command (R301): its effect on the slots, BUF, SA, SB and SR, where every source is read before
anything is written (R302), and then `complete`. An effect answers `none` where a source is unspecified: the fault
ReadUnspecified, which the spec states (R21, R255, U1). A command that no CMD write can have accepted is never executed (R88). -/
def run (i : Instr) (effect : State → Option State) (s : State) : Host.Outcome State Fault Refusal :=
  if i.wellFormed s.build.k then
    match effect s with
    | some t => .next (complete t)
    | none => .fault .readUnspecified
  else .refused .illegalCommand

/-- Make the `n` slots from `r` up unspecified, in the state (R293). -/
def loseSlots (r : SlotNo) (n : Nat) (s : State) : State :=
  { s with slots := SlotFile.unspecify s.slots r.toNat n }

/-- Make the BUF range of a command unspecified, in the state (R293). -/
def loseBuf (i : Instr) (s : State) : State :=
  match bufRange s.build.k i with
  | some (a, n) => { s with buf := Memory.unspecify s.buf a n }
  | none => s

/-- Every destination of an aborted command becomes unspecified (R293). A scalar command's destination is SR, which the
soft reset sets to 0. -/
def loseDestinations (i : Instr) (s : State) : State :=
  match i with
  | .nop => s
  | .montred => s
  | .barred => s
  | .csubq => s
  | .fqmul => s
  | .padd v rd _ _ => loseSlots rd (repeatCount s.build.k v) s
  | .psub v rd _ _ => loseSlots rd (repeatCount s.build.k v) s
  | .preduce v rd _ => loseSlots rd (repeatCount s.build.k v) s
  | .pcsubq v rd _ => loseSlots rd (repeatCount s.build.k v) s
  | .tomont v rd _ => loseSlots rd (repeatCount s.build.k v) s
  | .ntt v rd _ => loseSlots rd (repeatCount s.build.k v) s
  | .invntt v rd _ => loseSlots rd (repeatCount s.build.k v) s
  | .pmul v rd _ _ => loseSlots rd (repeatCount s.build.k v) s
  | .pmac v rd _ _ => loseSlots rd (repeatCount s.build.k v) s
  | .pvdot rd _ _ => loseSlots rd 1 s
  | .pack12 v p a => loseBuf (.pack12 v p a) s
  | .unpack12 v p _ => loseSlots p (repeatCount s.build.k v) s
  | .compress v p d a => loseBuf (.compress v p d a) s
  | .decompress v p _ _ => loseSlots p (repeatCount s.build.k v) s
  | .cbd2 v p _ => loseSlots p (repeatCount s.build.k v) s

/-- End the command in flight without completing it (R293). -/
def abort (s : State) : State :=
  match fetch s with
  | some (.ok i) => loseDestinations i { s with inFlight := none }
  | _ => { s with inFlight := none }

/-! ## Resets -/

/-- The soft reset: the command in flight is aborted and CTRL, STATUS, CMD, ERRINFO, SA, SB, SR and CMDCOUNT become 0; the
slots and BUF are otherwise unchanged (R292, R293). -/
def softReset (s : State) : State :=
  { abort s with
    sa := 0, sb := 0, sr := 0, ieDone := false, ieErr := false, done := false, err := false
    errCode := 0, errInfo := 0, cmd := 0, cmdCount := 0 }

/-- A power-on reset of the running block: its state becomes that of R42, on the same build, and the events still to come
stay to come (R290; log entry 12). -/
def powerOnReset (s : State) : State := { State.resetOf s.build with events := s.events }

end Sys2Proof.Machine
end

