-- ==== Sys2Proof/Machine/Bus.lean ====
section
/-! DEFINITION. The register window: its registers, its two data windows and the effect of one host transaction
(spec/10_state.md R26 to R37, spec/20_memory.md R60 to R72, spec/60_exceptions.md R252 to R257). -/

namespace Sys2Proof.Machine

/-- The ten registers of R26. -/
inductive Register where
  | id
  | param
  | ctrl
  | status
  | cmd
  | errInfo
  | sa
  | sb
  | sr
  | cmdCount
  deriving DecidableEq, Repr

/-- What an offset of the window is (R61): a register, a word of the BUF window by its number, a word of the POLY window by
its slot and its number in the slot, or a reserved offset. -/
inductive Region where
  | register (r : Register)
  | bufWord (w : Nat)
  | polyWord (slot i : Nat)
  | reserved
  deriving DecidableEq, Repr

/-- The register at an offset of the control region (R26); `none` for a reserved one. -/
def registerAt (off : Nat) : Option Register :=
  match off with
  | 0x000 => some .id
  | 0x004 => some .param
  | 0x008 => some .ctrl
  | 0x00C => some .status
  | 0x010 => some .cmd
  | 0x014 => some .errInfo
  | 0x018 => some .sa
  | 0x01C => some .sb
  | 0x020 => some .sr
  | 0x024 => some .cmdCount
  | _ => none

/-- The decode of the window's offsets that are multiples of 4 (R61, R63, R64). -/
def regionAt (off : Nat) : Region :=
  if off < 0x1000 then
    match registerAt off with
    | some r => .register r
    | none => .reserved
  else if off < 0x2000 then .bufWord ((off - 0x1000) / 4)
  else if off < 0x4000 then .reserved
  else if off < 0x8000 then .polyWord ((off - 0x4000) / 512) ((off - 0x4000) % 512 / 4)
  else .reserved

/-- The locations a host may not access while BUSY = 1: SA, SB, SR and the two data windows (R72). -/
def blockedWhileBusy : Region → Bool
  | .register .sa => true
  | .register .sb => true
  | .register .sr => true
  | .register _ => false
  | .bufWord _ => true
  | .polyWord _ _ => true
  | .reserved => false

/-! ## Reads -/

/-- The value a read of a register returns (R26 to R37). -/
def registerValue (r : Register) (s : State) : Word :=
  match r with
  | .id => Config.idValue
  | .param => Config.paramValue s.build
  | .ctrl => ctrlWord s
  | .status => statusWord s
  | .cmd => s.cmd
  | .errInfo => s.errInfo
  | .sa => s.sa
  | .sb => s.sb
  | .sr => s.sr.signExtend 32
  | .cmdCount => s.cmdCount

/-- The word `{BUF[4w+3], BUF[4w+2], BUF[4w+1], BUF[4w]}`; `none` where one of the bytes is unspecified (R63). -/
def bufWordValue (m : Memory) (w : Nat) : Option Word :=
  match Memory.read m (4 * w), Memory.read m (4 * w + 1), Memory.read m (4 * w + 2), Memory.read m (4 * w + 3) with
  | some b0, some b1, some b2, some b3 => some (b3 ++ b2 ++ b1 ++ b0)
  | _, _, _, _ => none

/-- The word `{P[slot][2i+1], P[slot][2i]}`; `none` where one of the coefficients is unspecified (R64). -/
def polyWordValue (f : SlotFile) (slot i : Nat) : Option Word :=
  match SlotFile.readCoef f slot (2 * i), SlotFile.readCoef f slot (2 * i + 1) with
  | some lo, some hi => some (hi ++ lo)
  | _, _ => none

/-- The value at a place of the window; `none` where it is unspecified. Reserved offsets read 0 (R61). -/
def regionValue (g : Region) (s : State) : Option Word :=
  match g with
  | .register r => some (registerValue r s)
  | .bufWord w => bufWordValue s.buf w
  | .polyWord slot i => polyWordValue s.slots slot i
  | .reserved => some 0

/-- The host gets a value back (log entry 6). -/
def respond (v : Word) (s : State) : State := { s with readData := some v }

/-- `HostRead(off)`: a blocked read while BUSY = 1 returns 0 and raises error 8 (R72, R304); any other read has no side
effect (R68), and a read of an unspecified location is the fault ReadUnspecified, which the spec states
(R21, R63, R64, R255, U1). -/
def hostRead (off : Nat) (s : State) : Host.Outcome State Fault Refusal :=
  if s.busy && blockedWhileBusy (regionAt off) then
    .next (respond 0 (raiseError .accessWhileBusy (accessInfo false off) s))
  else
    match regionValue (regionAt off) s with
    | some v => .next (respond v s)
    | none => .fault .readUnspecified

/-! ## Writes -/

/-- A write of CTRL: bit 31 performs a soft reset and the other bits are then ignored; otherwise bits 0 and 1 set the
interrupt enables (R28, R292). -/
def writeCtrl (v : Word) (s : State) : State :=
  if v.getLsbD 31 then softReset s else { s with ieDone := v.getLsbD 0, ieErr := v.getLsbD 1 }

/-- A write of STATUS: a 1 in bit 1 clears DONE and a 1 in bit 2 clears ERR with ERRCODE and ERRINFO (R29, R254). -/
def writeStatus (v : Word) (s : State) : State :=
  let s1 := if v.getLsbD 1 then { s with done := false } else s
  if v.getLsbD 2 then clearError s1 else s1

/-- A write of CMD. While BUSY = 1 it is error 7 and leaves CMD unchanged; otherwise CMD ← w and DONE ← 0, and the word is
rejected with the first error of its checks or accepted (R30, R252, R300, R306). -/
def writeCmd (w : Word) (s : State) : State :=
  if s.busy then raiseError .cmdWhileBusy w s
  else
    let s1 := { s with cmd := w, done := false }
    match issueCheck s.build.k w with
    | .ok _ => accept w s1
    | .error e => raiseError e w s1

/-- A write of a register. Writes to ID, PARAM, ERRINFO, SR and CMDCOUNT are ignored (R27). -/
def writeRegister (r : Register) (v : Word) (s : State) : State :=
  match r with
  | .ctrl => writeCtrl v s
  | .status => writeStatus v s
  | .cmd => writeCmd v s
  | .sa => { s with sa := v }
  | .sb => { s with sb := v }
  | .id => s
  | .param => s
  | .errInfo => s
  | .sr => s
  | .cmdCount => s

/-- A write of a BUF window word: `BUF[4w+i] <- v[8i+7:8i]` for i = 0 to 3 (R63). -/
def writeBufWord (w : Nat) (v : Word) (s : State) : State :=
  let bytes := [v.extractLsb' 0 8, v.extractLsb' 8 8, v.extractLsb' 16 8, v.extractLsb' 24 8]
  { s with buf := Memory.writeBytes s.buf (4 * w) bytes }

/-- A write of a POLY window word: the even coefficient from bits 15:0 and the odd one from bits 31:16 (R64). -/
def writePolyWord (slot i : Nat) (v : Word) (s : State) : State :=
  let even := SlotFile.writeCoef s.slots slot (2 * i) (v.extractLsb' 0 16)
  { s with slots := SlotFile.writeCoef even slot (2 * i + 1) (v.extractLsb' 16 16) }

/-- A write at a place of the window. Writes to reserved offsets are ignored (R61). -/
def writeRegion (g : Region) (v : Word) (s : State) : State :=
  match g with
  | .register r => writeRegister r v s
  | .bufWord w => writeBufWord w v s
  | .polyWord slot i => writePolyWord slot i v s
  | .reserved => s

/-- `HostWrite(off, v)`: a blocked write while BUSY = 1 is ignored and raises error 8 (R72, R304). -/
def hostWrite (off : Nat) (v : Word) (s : State) : State :=
  if s.busy && blockedWhileBusy (regionAt off) then raiseError .accessWhileBusy (accessInfo true off) s
  else writeRegion (regionAt off) v s

/-! ## One transaction -/

/-- The byte offset of a bus address in the window at BASE; `none` outside it (R60). -/
def windowOffset (base addr : BitVec 32) : Option Nat :=
  if (addr - base).toNat < Config.windowBytes then some (addr - base).toNat else none

/-- One host transaction: a 32-bit read or write at an offset that is a multiple of 4. A transaction of another width or at
another offset is refused (R62). -/
def transact (t : Transaction) (s : State) : Host.Outcome State Fault Refusal :=
  match windowOffset s.build.base t.addr with
  | none => .fault .outsideWindow
  | some off =>
    if t.size ≠ .word ∨ off % 4 ≠ 0 then .refused .unsupportedAccess
    else
      match t.data with
      | none => hostRead off s
      | some v => .next (hostWrite off v s)

end Sys2Proof.Machine
end

