-- ==== Sys2Proof/Machine/Operands.lean ====
section
/-! DEFINITION. The operand forms of the commands: K consecutive slots (spec/44_polyvec.md R230) and K consecutive BUF
images (R231), always read whole before anything is written (spec/70_reset_and_hazards.md R302). With V = 0 the
repetition count is 1, so one definition serves both forms. -/

namespace Sys2Proof.Machine

/-- The repetition count n of a command on this build (R230, R252). -/
def State.count (s : State) (v : Bool) : Nat := repeatCount s.build.k v

/-- Read the `n` slots from `r` up; `none` where a coefficient of one of them is unspecified (R21). -/
def readSlots (f : SlotFile) : Nat → Nat → Option (List Poly)
  | _, 0 => some []
  | r, n + 1 =>
    match SlotFile.readPoly f r, readSlots f (r + 1) n with
    | some p, some ps => some (p :: ps)
    | _, _ => none

/-- Write polynomials to consecutive slots from `r` up (R230). -/
def writeSlots (f : SlotFile) : Nat → List Poly → SlotFile
  | _, [] => f
  | r, p :: ps => writeSlots (SlotFile.writeSlot f r (SlotData.ofPoly p)) (r + 1) ps

/-- Read `n` consecutive images of `len` bytes each from `a` up; `none` where a byte is unspecified (R21, R231). -/
def readImages (m : Memory) (len : Nat) : Nat → Nat → Option (List (List Byte))
  | _, 0 => some []
  | a, n + 1 =>
    match Memory.readBytes m a len, readImages m len (a + len) n with
    | some b, some bs => some (b :: bs)
    | _, _ => none

/-- Write images one after another from `a` up (R231). -/
def writeImages (m : Memory) : Nat → List (List Byte) → Memory
  | _, [] => m
  | a, b :: bs => writeImages (Memory.writeBytes m a b) (a + b.length) bs

/-! ## One shape of command each -/

/-- Format P2: `P[rd+j] <- f(P[rs1+j])` for j < n (R230). -/
def slotOp1 (f : Poly → Poly) (v : Bool) (rd rs1 : SlotNo) (s : State) : Option State :=
  match readSlots s.slots rs1.toNat (s.count v) with
  | some as => some { s with slots := writeSlots s.slots rd.toNat (as.map f) }
  | none => none

/-- Format P3: `P[rd+j] <- f(P[rs1+j], P[rs2+j])` for j < n (R230). -/
def slotOp2 (f : Poly → Poly → Poly) (v : Bool) (rd rs1 rs2 : SlotNo) (s : State) : Option State :=
  match readSlots s.slots rs1.toNat (s.count v), readSlots s.slots rs2.toNat (s.count v) with
  | some as, some bs => some { s with slots := writeSlots s.slots rd.toNat (List.zipWith f as bs) }
  | _, _ => none

/-- Format P3 with the destination as a third source: `P[rd+j] <- f(P[rd+j], P[rs1+j], P[rs2+j])` for j < n (R230). -/
def slotOp3 (f : Poly → Poly → Poly → Poly) (v : Bool) (rd rs1 rs2 : SlotNo) (s : State) : Option State :=
  match readSlots s.slots rd.toNat (s.count v), readSlots s.slots rs1.toNat (s.count v),
      readSlots s.slots rs2.toNat (s.count v) with
  | some cs, some as, some bs =>
    some { s with slots := writeSlots s.slots rd.toNat (List.zipWith3 f cs as bs) }
  | _, _, _ => none

/-- Format B or BD from slots to BUF: the image of `P[p+j]` at `addr + j·L` for j < n (R231). -/
def slotsToBuf (image : Poly → List Byte) (v : Bool) (p : SlotNo) (addr : BufAddr) (s : State) : Option State :=
  match readSlots s.slots p.toNat (s.count v) with
  | some as => some { s with buf := writeImages s.buf addr.toNat (as.map image) }
  | none => none

/-- Format B or BD from BUF to slots: `P[p+j]` from the `len` bytes at `addr + j·len` for j < n (R231). -/
def bufToSlots (poly : List Byte → Poly) (len : Nat) (v : Bool) (p : SlotNo) (addr : BufAddr) (s : State) :
    Option State :=
  match readImages s.buf len addr.toNat (s.count v) with
  | some bs => some { s with slots := writeSlots s.slots p.toNat (bs.map poly) }
  | none => none

/-- Format S: SR from SA and SB (R24). -/
def scalarOp (f : Word → Word → Coef) (s : State) : Option State := some { s with sr := f s.sa s.sb }

end Sys2Proof.Machine
end

