-- ==== Sys2Proof/Machine/Scalar.lean ====
section
/-! DEFINITION. The four reduction functions every command of the block uses, bit for bit (spec/40_reduction.md R120 to
R123, R130), and the five scalar commands (R124 to R128). Each function converts to integers, computes exactly and narrows
at the end; `x / 2 ^ n` on integers is ⌊x / 2^n⌋, the spec's `x >> n`. -/

namespace Sys2Proof.Machine

/-- `MONT(a)`, the Montgomery reduction of a signed 32-bit integer (R120). -/
def mont (a : Int) : Coef :=
  let u := s16 (a * Config.qinv)
  let t := a - u.toInt * Config.modulus
  s16 (t / 2 ^ 16)

/-- `FQMUL(a, b)`, the Montgomery product of two 16-bit signed integers (R121). -/
def fqmul (a b : Coef) : Coef := mont (a.toInt * b.toInt)

/-- `CSUBQ(a)` on integers: the correction is taken from the sign bit of the 17-bit difference (R123). -/
def csubqInt (a : Int) : Int :=
  let d := a - Config.modulus
  let m := if (BitVec.ofInt 17 d).msb then Config.modulus else 0
  d + m

/-- `CSUBQ(a)` on a stored 16-bit value (R123). -/
def csubq (a : Coef) : Coef := s16 (csubqInt a.toInt)

/-- `BARRETT(a)`: the fixed-point quotient estimate, then one conditional subtraction (R122). -/
def barrett (a : Coef) : Coef :=
  let t := (20159 * a.toInt) / 2 ^ 26
  let r := a.toInt - t * Config.modulus
  s16 (csubqInt r)

/-- `s16(w[15:0])`: the low half of a scalar register (R35, R36). -/
def lowHalf (w : Word) : Coef := w.setWidth 16

/-- NOP: no data effect (R124). -/
def execNop (s : State) : Host.Outcome State Fault Refusal := run .nop some s

/-- MONTRED: SR ← MONT(s32(SA)) (R125). -/
def execMontred (s : State) : Host.Outcome State Fault Refusal :=
  run .montred (scalarOp fun sa _ => mont sa.toInt) s

/-- BARRED: SR ← BARRETT(s16(SA[15:0])) (R126). -/
def execBarred (s : State) : Host.Outcome State Fault Refusal :=
  run .barred (scalarOp fun sa _ => barrett (lowHalf sa)) s

/-- CSUBQ: SR ← CSUBQ(s16(SA[15:0])) (R127). -/
def execCsubq (s : State) : Host.Outcome State Fault Refusal :=
  run .csubq (scalarOp fun sa _ => csubq (lowHalf sa)) s

/-- FQMUL: SR ← FQMUL(s16(SA[15:0]), s16(SB[15:0])) (R128). -/
def execFqmul (s : State) : Host.Outcome State Fault Refusal :=
  run .fqmul (scalarOp fun sa sb => fqmul (lowHalf sa) (lowHalf sb)) s

end Sys2Proof.Machine
end

