-- ==== Sys2Proof/Machine/Poly.lean ====
section
/-! DEFINITION. Coefficient-wise arithmetic on polynomials (spec/43_poly.md R190 to R194). -/

namespace Sys2Proof.Machine

/-- `s16(a + b)`: a coefficient sum that wraps (R12). -/
def addWrap (a b : Coef) : Coef := s16 (a.toInt + b.toInt)

/-- `s16(a − b)`: a coefficient difference that wraps (R12). -/
def subWrap (a b : Coef) : Coef := s16 (a.toInt - b.toInt)

/-- Coefficient-wise sum without reduction (R190). -/
def addPoly (a b : Poly) : Poly := zipVec addWrap a b

/-- Coefficient-wise difference without reduction (R191). -/
def subPoly (a b : Poly) : Poly := zipVec subWrap a b

/-- BARRETT on every coefficient (R192). -/
def reducePoly (a : Poly) : Poly := mapVec barrett a

/-- CSUBQ on every coefficient (R193). -/
def csubqPoly (a : Poly) : Poly := mapVec csubq a

/-- One coefficient to Montgomery form; 1353 = R^2 mod Q (R194). -/
def toMont (x : Coef) : Coef := barrett (mont (x.toInt * 1353))

/-- Montgomery form of every coefficient (R194). -/
def toMontPoly (a : Poly) : Poly := mapVec toMont a

/-- PADD: `P[rd+j][i] <- s16(P[rs1+j][i] + P[rs2+j][i])` (R190). -/
def execPadd (v : Bool) (rd rs1 rs2 : SlotNo) (s : State) : Host.Outcome State Fault Refusal :=
  run (.padd v rd rs1 rs2) (slotOp2 addPoly v rd rs1 rs2) s

/-- PSUB: `P[rd+j][i] <- s16(P[rs1+j][i] − P[rs2+j][i])` (R191). -/
def execPsub (v : Bool) (rd rs1 rs2 : SlotNo) (s : State) : Host.Outcome State Fault Refusal :=
  run (.psub v rd rs1 rs2) (slotOp2 subPoly v rd rs1 rs2) s

/-- PREDUCE: `P[rd+j][i] <- BARRETT(P[rs1+j][i])` (R192). -/
def execPreduce (v : Bool) (rd rs1 : SlotNo) (s : State) : Host.Outcome State Fault Refusal :=
  run (.preduce v rd rs1) (slotOp1 reducePoly v rd rs1) s

/-- PCSUBQ: `P[rd+j][i] <- CSUBQ(P[rs1+j][i])` (R193). -/
def execPcsubq (v : Bool) (rd rs1 : SlotNo) (s : State) : Host.Outcome State Fault Refusal :=
  run (.pcsubq v rd rs1) (slotOp1 csubqPoly v rd rs1) s

/-- TOMONT: `P[rd+j][i] <- BARRETT(MONT(P[rs1+j][i] · 1353))` (R194). -/
def execTomont (v : Bool) (rd rs1 : SlotNo) (s : State) : Host.Outcome State Fault Refusal :=
  run (.tomont v rd rs1) (slotOp1 toMontPoly v rd rs1) s

end Sys2Proof.Machine
end

