-- ==== Sys2Proof/Machine/Ntt.lean ====
section
/-! DEFINITION. The twiddle ROM, the two transforms and NTT-domain multiplication (spec/41_ntt.md R150 to R158).

A layer is written block by block, as the spec's pseudocode has it: a block is `2·len` consecutive coefficients, its lower
half `lo` and its upper half `hi`, and one butterfly takes the coefficients of the same place in the two halves. No
coefficient of a layer is in two butterflies, so their order in a block does not matter (log entry 15).
-/

namespace Sys2Proof.Machine

/-- The entries `ZETAS[0..63]` of the twiddle ROM, in the rows of R150's table. -/
def zetasLow : List Nat :=
  [2285, 2571, 2970, 1812, 1493, 1422, 287, 202] ++
  [3158, 622, 1577, 182, 962, 2127, 1855, 1468] ++
  [573, 2004, 264, 383, 2500, 1458, 1727, 3199] ++
  [2648, 1017, 732, 608, 1787, 411, 3124, 1758] ++
  [1223, 652, 2777, 1015, 2036, 1491, 3047, 1785] ++
  [516, 3321, 3009, 2663, 1711, 2167, 126, 1469] ++
  [2476, 3239, 3058, 830, 107, 1908, 3082, 2378] ++
  [2931, 961, 1821, 2604, 448, 2264, 677, 2054]

/-- The entries `ZETAS[64..127]` of the twiddle ROM, in the rows of R150's table. -/
def zetasHigh : List Nat :=
  [2226, 430, 555, 843, 2078, 871, 1550, 105] ++
  [422, 587, 177, 3094, 3038, 2869, 1574, 1653] ++
  [3083, 778, 1159, 3182, 2552, 1483, 2727, 1119] ++
  [1739, 644, 2457, 349, 418, 329, 3173, 3254] ++
  [817, 1097, 603, 610, 1322, 2044, 1864, 384] ++
  [2114, 3193, 1218, 1994, 2455, 220, 2142, 1670] ++
  [2144, 1799, 2051, 794, 1819, 2475, 2459, 478] ++
  [3221, 3021, 996, 991, 958, 1869, 1522, 1628]

/-- The twiddle ROM `ZETAS[0..127]`: a constant, read by commands only and touched by no reset (R11, R39, R150; log entry 14). -/
def zetas : List Nat := zetasLow ++ zetasHigh

/-- `ZETAS[k]`, an integer in [0, Q) (R150). Every use has `k` below 128. -/
def zeta (k : Nat) : Coef := s16 (zetas.getD k 0)

/-- The forward butterflies of the blocks of length `2·len`, the first twiddle of the list for the first block: `t = z·hi`,
then `hi ← lo − t` and `lo ← lo + t` (Cooley–Tukey, R152). -/
def nttBlocks (len : Nat) : List Coef → List Coef → List Coef
  | [], _ => []
  | z :: zs, r =>
    let lo := r.take len
    let t := ((r.drop len).take len).map (fqmul z)
    List.zipWith addWrap lo t ++ List.zipWith subWrap lo t ++ nttBlocks len zs (r.drop (2 * len))

/-- The twiddles of the forward layer of block length `len`: `ZETAS[128/len]` and on, one a block. The seven layers use
`ZETAS[1]` to `ZETAS[127]` in increasing order (R150, R152). -/
def nttZetas (len : Nat) : List Coef := (List.range (128 / len)).map fun b => zeta (128 / len + b)

/-- One forward layer (R152). -/
def nttLayer (r : Poly) (len : Nat) : Poly := Poly.ofList (nttBlocks len (nttZetas len) r.toList)

/-- `NTT_F(f)`: seven layers, then BARRETT on every coefficient (R152). -/
def nttF (f : Poly) : Poly := reducePoly ([128, 64, 32, 16, 8, 4, 2].foldl nttLayer f)

/-- The inverse butterflies of the blocks of length `2·len`, the first twiddle of the list for the first block:
`lo ← BARRETT(lo + hi)` and `hi ← z·(hi − lo)`, both from the old `lo` (Gentleman–Sande, R154). -/
def invnttBlocks (len : Nat) : List Coef → List Coef → List Coef
  | [], _ => []
  | z :: zs, r =>
    let lo := r.take len
    let hi := (r.drop len).take len
    (List.zipWith addWrap lo hi).map barrett ++ (List.zipWith subWrap hi lo).map (fqmul z) ++
      invnttBlocks len zs (r.drop (2 * len))

/-- The twiddles of the inverse layer of block length `len`: `ZETAS[256/len − 1]` and down, one a block. The seven layers use
`ZETAS[127]` down to `ZETAS[1]` (R150, R154). -/
def invnttZetas (len : Nat) : List Coef := (List.range (128 / len)).map fun b => zeta (256 / len - 1 - b)

/-- One inverse layer (R154). -/
def invnttLayer (r : Poly) (len : Nat) : Poly := Poly.ofList (invnttBlocks len (invnttZetas len) r.toList)

/-- The last pass of the inverse transform on one coefficient; 1441 = F_INV (R154). -/
def invnttFinal (x : Coef) : Coef := barrett (fqmul x 1441)

/-- `INVNTT_F(h)`: seven layers, then the final pass on every coefficient (R154). -/
def invnttF (h : Poly) : Poly := mapVec invnttFinal ([2, 4, 8, 16, 32, 64, 128].foldl invnttLayer h)

/-- The twiddle of each of the 128 pairs: `ZETAS[64+i]` for the pair (4i, 4i+1) and its negative for the pair (4i+2, 4i+3)
(R156). -/
def pairZetas : List Coef := (List.range 64).flatMap fun i => [zeta (64 + i), -zeta (64 + i)]

/-- The products of the pairs, each with the first twiddle of the list for the first pair (R156). -/
def basemulPairs : List Coef → List Coef → List Coef → List Coef
  | z :: zs, a0 :: a1 :: as, b0 :: b1 :: bs =>
    addWrap (fqmul (fqmul a1 b1) z) (fqmul a0 b0) :: addWrap (fqmul a0 b1) (fqmul a1 b0) :: basemulPairs zs as bs
  | _, _, _ => []

/-- `BASEMUL_RAW(a, b)`: the pairwise product, not reduced (R156). -/
def basemulRaw (a b : Poly) : Poly := Poly.ofList (basemulPairs pairZetas a.toList b.toList)

/-- The polynomial PMUL writes (R157). -/
def mulPoly (a b : Poly) : Poly := reducePoly (basemulRaw a b)

/-- The polynomial PMAC writes, from the accumulator `c` (R158). -/
def macPoly (c a b : Poly) : Poly := reducePoly (addPoly c (basemulRaw a b))

/-- NTT: `P[rd+j] <- NTT_F(P[rs1+j])` (R153). -/
def execNtt (v : Bool) (rd rs1 : SlotNo) (s : State) : Host.Outcome State Fault Refusal :=
  run (.ntt v rd rs1) (slotOp1 nttF v rd rs1) s

/-- INVNTT: `P[rd+j] <- INVNTT_F(P[rs1+j])` (R155). -/
def execInvntt (v : Bool) (rd rs1 : SlotNo) (s : State) : Host.Outcome State Fault Refusal :=
  run (.invntt v rd rs1) (slotOp1 invnttF v rd rs1) s

/-- PMUL: `P[rd+j][i] <- BARRETT(BASEMUL_RAW(P[rs1+j], P[rs2+j])[i])` (R157). -/
def execPmul (v : Bool) (rd rs1 rs2 : SlotNo) (s : State) : Host.Outcome State Fault Refusal :=
  run (.pmul v rd rs1 rs2) (slotOp2 mulPoly v rd rs1 rs2) s

/-- PMAC: `P[rd+j][i] <- BARRETT(s16(P[rd+j][i] + BASEMUL_RAW(P[rs1+j], P[rs2+j])[i]))` (R158). -/
def execPmac (v : Bool) (rd rs1 rs2 : SlotNo) (s : State) : Host.Outcome State Fault Refusal :=
  run (.pmac v rd rs1 rs2) (slotOp3 macPoly v rd rs1 rs2) s

end Sys2Proof.Machine
end

