-- ==== Sys2Proof/Machine/Polyvec.lean ====
section
/-! DEFINITION. The polynomial-vector inner product (spec/44_polyvec.md R233). The vector forms of the other commands are
in Machine/Operands.lean. -/

namespace Sys2Proof.Machine

/-- The polynomial with every coefficient 0, the start of PVDOT's accumulation (R233). -/
def zeroPoly : Poly := Vector.replicate 256 0

/-- The 16-bit wrapping sum over the pairs of `BASEMUL_RAW`, added to `acc` in index order (R233). -/
def dotAcc (acc : Poly) : List Poly → List Poly → Poly
  | a :: as, b :: bs => dotAcc (addPoly acc (basemulRaw a b)) as bs
  | _, _ => acc

/-- The polynomial PVDOT writes (R233). -/
def dotPoly (as bs : List Poly) : Poly := reducePoly (dotAcc zeroPoly as bs)

/-- PVDOT's effect: all 2K source slots are read before the one destination is written (R233). -/
def dotOp (rd rs1 rs2 : SlotNo) (s : State) : Option State :=
  match readSlots s.slots rs1.toNat s.build.k.toNat, readSlots s.slots rs2.toNat s.build.k.toNat with
  | some as, some bs =>
    some { s with slots := SlotFile.writeSlot s.slots rd.toNat (SlotData.ofPoly (dotPoly as bs)) }
  | _, _ => none

/-- PVDOT: `P[rd][i] <- BARRETT(acc[i])` (R233). -/
def execPvdot (rd rs1 rs2 : SlotNo) (s : State) : Host.Outcome State Fault Refusal :=
  run (.pvdot rd rs1 rs2) (dotOp rd rs1 rs2) s

end Sys2Proof.Machine
end

