-- ==== Sys2Proof/Machine/Sampler.lean ====
section
/-! DEFINITION. The centered-binomial sampler, η = 2 (spec/42_sampler.md R180 to R183). -/

namespace Sys2Proof.Machine

/-- `dd`: the count of set bits of each adjacent bit pair, in that pair (R180). -/
def pairCounts (w : Word) : Word := (w &&& 0x55555555) + ((w >>> 1) &&& 0x55555555)

/-- The coefficient of nibble j: the count of its low bit pair minus the count of its high bit pair (R180). -/
def nibbleCoef (dd : Word) (j : Nat) : Coef :=
  let a := (dd >>> (4 * j)) &&& 3
  let c := (dd >>> (4 * j + 2)) &&& 3
  s16 ((a.toNat : Int) - (c.toNat : Int))

/-- The coefficients of consecutive bytes, four bytes at a time: a little-endian 32-bit word gives eight of them (R180). -/
def cbd2Words : List Byte → List Coef
  | b0 :: b1 :: b2 :: b3 :: bs =>
    (List.range 8).map (nibbleCoef (pairCounts (b3 ++ b2 ++ b1 ++ b0))) ++ cbd2Words bs
  | _ => []

/-- `CBD2_F(b)`: 256 coefficients from 128 bytes (R180). -/
def cbd2F (b : List Byte) : Poly := Poly.ofList (cbd2Words b)

/-- CBD2: `P[p+j] <- CBD2_F(BufRead(addr + 128·j, 128))` (R181). -/
def execCbd2 (v : Bool) (p : SlotNo) (addr : BufAddr) (s : State) : Host.Outcome State Fault Refusal :=
  run (.cbd2 v p addr) (bufToSlots cbd2F (imageBytes (.cbd2 v p addr)) v p addr) s

end Sys2Proof.Machine
end

