-- ==== Sys2Proof/Machine/Serial.lean ====
section
/-! DEFINITION. The bit stream of every byte image (spec/20_memory.md R66), and 12-bit serialization and compression
(spec/43_poly.md R195 to R200). -/

namespace Sys2Proof.Machine

/-- The bit stream of `d`-bit values: each value's bits in turn, least-significant bit first, so that bit j of value i is
stream bit d·i + j (R66). -/
def bitStream (d : Nat) (xs : List Nat) : List Bool := xs.flatMap fun x => (List.range d).map x.testBit

/-- `Σ_j bit(j) · 2^j`: a number from its bits, least-significant bit first (R66). -/
def ofBits : List Bool → Nat
  | [] => 0
  | b :: bs => b.toNat + 2 * ofBits bs

/-- The first `n` values of `d` bits each of a stream (R66). -/
def takeValues (d : Nat) : Nat → List Bool → List Nat
  | 0, _ => []
  | n + 1, bits => ofBits (bits.take d) :: takeValues d n (bits.drop d)

/-- `PackBits_d(t)`: the 32·d bytes of 256 values, each in [0, 2^d): the stream taken 8 bits at a time (R66). -/
def packBits (d : Nat) (t : Poly) : List Byte :=
  (takeValues 8 (32 * d) (bitStream d (t.toList.map BitVec.toNat))).map (BitVec.ofNat 8)

/-- `UnpackBits_d(b)`: the 256 values in [0, 2^d) of 32·d bytes: the stream taken d bits at a time (R66). -/
def unpackBits (d : Nat) (b : List Byte) : Poly :=
  Poly.ofList ((takeValues d 256 (bitStream 8 (b.map BitVec.toNat))).map (BitVec.ofNat 16))

/-- `COMPRESS_d(x)` (R197). -/
def compressCoef (d : Nat) (x : Coef) : Coef :=
  BitVec.ofNat 16 ((((barrett x).toNat <<< d) + 1664) / 3329 &&& (2 ^ d - 1))

/-- `DECOMPRESS_d(t)` (R198). -/
def decompressCoef (d : Nat) (t : Coef) : Coef :=
  BitVec.ofNat 16 ((t.toNat * 3329 + (1 <<< (d - 1))) >>> d)

/-- The 384-byte image PACK12 writes: BARRETT first, then 12 bits a coefficient (R195). -/
def pack12Image (a : Poly) : List Byte := packBits 12 (reducePoly a)

/-- The 32·d-byte image COMPRESS writes (R199). -/
def compressImage (d : Nat) (a : Poly) : List Byte := packBits d (mapVec (compressCoef d) a)

/-- The polynomial DECOMPRESS writes (R200). -/
def decompressPoly (d : Nat) (b : List Byte) : Poly := mapVec (decompressCoef d) (unpackBits d b)

/-- PACK12: `BUF[addr + 384·j ..] <- PackBits_12(BARRETT(P[p+j]))` (R195). -/
def execPack12 (v : Bool) (p : SlotNo) (addr : BufAddr) (s : State) : Host.Outcome State Fault Refusal :=
  run (.pack12 v p addr) (slotsToBuf pack12Image v p addr) s

/-- UNPACK12: `P[p+j] <- UnpackBits_12(BufRead(addr + 384·j, 384))`, the raw fields (R196). -/
def execUnpack12 (v : Bool) (p : SlotNo) (addr : BufAddr) (s : State) : Host.Outcome State Fault Refusal :=
  run (.unpack12 v p addr) (bufToSlots (unpackBits 12) (imageBytes (.unpack12 v p addr)) v p addr) s

/-- COMPRESS: `BUF[addr + 32·d·j ..] <- PackBits_d(COMPRESS_d(P[p+j]))` (R199). -/
def execCompress (v : Bool) (p : SlotNo) (d : Width) (addr : BufAddr) (s : State) :
    Host.Outcome State Fault Refusal :=
  run (.compress v p d addr) (slotsToBuf (compressImage d.toNat) v p addr) s

/-- DECOMPRESS: `P[p+j] <- DECOMPRESS_d(UnpackBits_d(BufRead(addr + 32·d·j, 32·d)))` (R200). -/
def execDecompress (v : Bool) (p : SlotNo) (d : Width) (addr : BufAddr) (s : State) :
    Host.Outcome State Fault Refusal :=
  run (.decompress v p d addr)
    (bufToSlots (decompressPoly d.toNat) (imageBytes (.decompress v p d addr)) v p addr) s

end Sys2Proof.Machine
end

