-- ==== Sys2Proof/Machine/Dispatch.lean ====
section
/-! DEFINITION. The completion step of each command: one arm a constructor. -/

namespace Sys2Proof.Machine

def exec (i : Instr) (s : State) : Host.Outcome State Fault Refusal :=
  match i with
  | .nop => Sys2Proof.Machine.execNop s
  | .montred => Sys2Proof.Machine.execMontred s
  | .barred => Sys2Proof.Machine.execBarred s
  | .csubq => Sys2Proof.Machine.execCsubq s
  | .fqmul => Sys2Proof.Machine.execFqmul s
  | .padd v rd rs1 rs2 => Sys2Proof.Machine.execPadd v rd rs1 rs2 s
  | .psub v rd rs1 rs2 => Sys2Proof.Machine.execPsub v rd rs1 rs2 s
  | .preduce v rd rs1 => Sys2Proof.Machine.execPreduce v rd rs1 s
  | .pcsubq v rd rs1 => Sys2Proof.Machine.execPcsubq v rd rs1 s
  | .tomont v rd rs1 => Sys2Proof.Machine.execTomont v rd rs1 s
  | .ntt v rd rs1 => Sys2Proof.Machine.execNtt v rd rs1 s
  | .invntt v rd rs1 => Sys2Proof.Machine.execInvntt v rd rs1 s
  | .pmul v rd rs1 rs2 => Sys2Proof.Machine.execPmul v rd rs1 rs2 s
  | .pmac v rd rs1 rs2 => Sys2Proof.Machine.execPmac v rd rs1 rs2 s
  | .pvdot rd rs1 rs2 => Sys2Proof.Machine.execPvdot rd rs1 rs2 s
  | .pack12 v p addr => Sys2Proof.Machine.execPack12 v p addr s
  | .unpack12 v p addr => Sys2Proof.Machine.execUnpack12 v p addr s
  | .compress v p d addr => Sys2Proof.Machine.execCompress v p d addr s
  | .decompress v p d addr => Sys2Proof.Machine.execDecompress v p d addr s
  | .cbd2 v p addr => Sys2Proof.Machine.execCbd2 v p addr s

end Sys2Proof.Machine
end

