-- ==== Sys2Proof/Machine/Step.lean ====
section
/-! DEFINITION. One step of the machine: the next event of the block's total order (spec/60_exceptions.md R258,
spec/70_reset_and_hazards.md R297), and the placing of a command where the engine takes it. -/

namespace Sys2Proof.Machine

/-- The command engine's turn: it completes the command in flight (R301); when idle it does nothing (R265). A word no CMD
write can have accepted is never executed (R88). -/
def engineStep (s : State) : Host.Outcome State Fault Refusal :=
  match fetch s with
  | some (.ok i) => exec i s
  | some (.error _) => .refused .illegalCommand
  | none => .next s

/-- One step: the event at the head of `events` happens and is gone. When the host has nothing more to do the engine has
its turn, so a command in flight completes (R298). -/
def step (s : State) : Host.Outcome State Fault Refusal :=
  match s.events with
  | [] => engineStep s
  | .complete :: rest => engineStep { s with events := rest }
  | .transaction t :: rest => transact t { s with events := rest }
  | .powerOnReset :: rest => .next (powerOnReset { s with events := rest })

/-- The state in which the command word `w` is in flight and the engine moves next: where the block's engine takes its next
command (R40). CMD holds the word of the command in flight (R306). DESIGN CHOICE (log entry 8): it stands for the
accepted CMD write, and places no operands. -/
def State.withFetchWord (s : State) (nbits w : Nat) : State :=
  { s with
    cmd := tableWord nbits w
    inFlight := some (tableWord nbits w)
    events := .complete :: s.events }

end Sys2Proof.Machine
end

