-- ==== Sys2Proof/Safety.lean ====
section
/-! DEFINITION. What claims are stated in: the clean entry of a run (spec/70_reset_and_hazards.md R296), the invariant of
the machine, and what it means for slots and BUF bytes to hold given values. -/

namespace Sys2Proof.Machine

/-- `CleanEntry` of R296: BUSY = 0, no command in flight and STATUS.ERR = 0. That no fault has been recorded holds of every
state, since a fault is an outcome after which there is no state (log entry 7). -/
def CleanEntry (s : State) : Prop := s.busy = false ∧ s.inFlight = none ∧ s.err = false

/-- What holds of every state a run reaches. -/
structure State.Inv (s : State) : Prop where
  /-- BUF keeps its canonical form. -/
  mem : Memory.wf s.buf
  /-- The rank is a legal one, 1 to 15 (R5). -/
  rank : s.build.k ≠ 0
  /-- With STATUS.ERR = 0, ERRCODE and ERRINFO are 0 (R29, R31). -/
  clear : s.err = false → s.errCode = 0 ∧ s.errInfo = 0
  /-- With STATUS.ERR = 1, ERRCODE is one of the codes 1 to 8; 9 to 15 are never produced (R251). -/
  code : s.err = true → 1 ≤ s.errCode.toNat ∧ s.errCode.toNat ≤ 8
  /-- A command in flight is the word in CMD (R306), it passed every check (R300), and DONE is 0 (R29). -/
  flight : ∀ w, s.inFlight = some w → s.cmd = w ∧ s.done = false ∧ ∃ i, issueCheck s.build.k w = .ok i

/-- The `n` slots from `r` up hold the polynomials `a 0`, `a 1`, …: every coefficient of theirs is specified. -/
def SlotsHold (s : State) (r n : Nat) (a : Nat → Poly) : Prop :=
  ∀ j < n, SlotFile.readPoly s.slots (r + j) = some (a j)

/-- The `n` bytes of BUF from `x` up hold the bytes `b 0`, `b 1`, …: every one of them is specified. -/
def BytesHold (s : State) (x n : Nat) (b : Nat → Byte) : Prop :=
  ∀ j < n, Memory.read s.buf (x + j) = some (b j)

/-- Every slot outside the `n` slots from `r` up is as it was. -/
def SlotsKeptOutside (s t : State) (r n : Nat) : Prop :=
  ∀ x, ¬(r ≤ x ∧ x < r + n) → t.slots[x]? = s.slots[x]?

/-- Every byte of BUF outside the `n` bytes from `x` up reads as it did. -/
def BytesKeptOutside (s t : State) (x n : Nat) : Prop :=
  ∀ y, ¬(x ≤ y ∧ y < x + n) → Memory.read t.buf y = Memory.read s.buf y

end Sys2Proof.Machine
end

