-- ==== Sys2Proof/Certificates/Slice0/Obligations.lean ====
section
/-! DEFINITION. The statements for the provers, and the few definitions they are written in. Each docstring names the rules
of spec/ the statement formalises. A statement about a command's result has as its conclusion that `exec` answers a next
state, and says of that state everything that differs from the state before. -/

open Sys2Proof Sys2Proof.Machine

namespace Sys2Proof.Claims

/-! ## Shapes of a result -/

/-- The command completes; besides `complete`'s fields it changes only the `n` slots from `rd` up, and slot `rd + j` then
holds a polynomial of which `result j` holds. -/
def WritesSlots (i : Instr) (s : State) (rd n : Nat) (result : Nat → Poly → Prop) : Prop :=
  ∃ t, exec i s = .next t ∧ t = { complete s with slots := t.slots } ∧ SlotsKeptOutside s t rd n ∧
    ∀ j < n, ∃ q, SlotFile.readPoly t.slots (rd + j) = some q ∧ result j q

/-- The command completes; besides `complete`'s fields it changes only the `n` images of 32·d bytes from byte `x` of BUF
up, and bit `u` of value `i` of image `j` is then bit `u` of `value j i`, at the place R66 gives it. -/
def StoresImages (c : Instr) (s : State) (x n d : Nat) (value : Nat → Nat → Nat) : Prop :=
  ∃ t, exec c s = .next t ∧ t = { complete s with buf := t.buf } ∧ BytesKeptOutside s t x (n * (32 * d)) ∧
    ∀ j < n, ∀ i < 256, ∀ u < d, ∃ b, Memory.read t.buf (x + 32 * d * j + (d * i + u) / 8) = some b ∧
      b.getLsbD ((d * i + u) % 8) = (value j i).testBit u

/-- Bit `u` of value `i` of the `j`-th image of 32·d bytes in a sequence of bytes (R66, R231). -/
def imageBit (b : Nat → Byte) (d j i u : Nat) : Bool :=
  (b (32 * d * j + (d * i + u) / 8)).getLsbD ((d * i + u) % 8)

/-- Coefficient `i` of a polynomial as an integer. -/
def coefAt (p : Poly) (i : Nat) : Int := (p[i]?.getD 0).toInt

/-- Every coefficient is canonical, in [0, Q). -/
def Canonical (p : Poly) : Prop := ∀ i < 256, 0 ≤ coefAt p i ∧ coefAt p i < 3329

/-- The width of a compression command as a number is legal, 1 to 11 (R9). -/
def LegalWidth (d : Nat) : Prop := 1 ≤ d ∧ d ≤ 11

/-! ## The spec's pseudocode, loop by loop -/

/-- `r[i]` of the pseudocode. -/
def get (r : Poly) (i : Nat) : Coef := r[i]?.getD 0

/-- `r[i] = c` of the pseudocode. -/
def set (r : Poly) (i : Nat) (c : Coef) : Poly := r.setIfInBounds i c

/-- The inner loop's body of NTT_F (R152). -/
def nttBody (z : Coef) (len : Nat) (r : Poly) (j : Nat) : Poly :=
  let t := fqmul z (get r (j + len))
  let r1 := set r (j + len) (s16 ((get r j).toInt - t.toInt))
  set r1 j (s16 ((get r1 j).toInt + t.toInt))

/-- One block of NTT_F with the running index `k` of the twiddles (R152). -/
def nttBlock (len : Nat) (kr : Nat × Poly) (start : Nat) : Nat × Poly :=
  (kr.1 + 1, (List.range' start len).foldl (nttBody (zeta kr.1) len) kr.2)

/-- One layer of NTT_F: the blocks that start at 0, 2·len, 4·len, … below 256 (R152). -/
def nttPass (kr : Nat × Poly) (len : Nat) : Nat × Poly :=
  ((List.range (128 / len)).map fun b => 2 * len * b).foldl (nttBlock len) kr

/-- NTT_F as the pseudocode of R152 writes it. -/
def nttPseudocode (f : Poly) : Poly :=
  (([128, 64, 32, 16, 8, 4, 2].foldl nttPass (1, f)).2).map barrett

/-- The inner loop's body of INVNTT_F (R154). -/
def invnttBody (z : Coef) (len : Nat) (r : Poly) (j : Nat) : Poly :=
  let t := get r j
  let r1 := set r j (barrett (s16 (t.toInt + (get r (j + len)).toInt)))
  set r1 (j + len) (fqmul z (s16 ((get r1 (j + len)).toInt - t.toInt)))

/-- One block of INVNTT_F with the running index `k` of the twiddles (R154). -/
def invnttBlock (len : Nat) (kr : Nat × Poly) (start : Nat) : Nat × Poly :=
  (kr.1 - 1, (List.range' start len).foldl (invnttBody (zeta kr.1) len) kr.2)

/-- One layer of INVNTT_F (R154). -/
def invnttPass (kr : Nat × Poly) (len : Nat) : Nat × Poly :=
  ((List.range (128 / len)).map fun b => 2 * len * b).foldl (invnttBlock len) kr

/-- INVNTT_F as the pseudocode of R154 writes it. -/
def invnttPseudocode (h : Poly) : Poly :=
  (([2, 4, 8, 16, 32, 64, 128].foldl invnttPass (127, h)).2).map fun x => barrett (fqmul x 1441)

/-- `brv7(i)`, the 7-bit bit reversal (spec/00_scope.md section 4). -/
def brv7 (i : Nat) : Nat := (List.range 7).foldl (fun n j => n + (i.testBit j).toNat * 2 ^ (6 - j)) 0

/-! ## R252 and R87 on the bits of a word -/

/-- `w[lo+n−1:lo]` as a number. -/
def bits (w : Word) (lo n : Nat) : Nat := w.toNat / 2 ^ lo % 2 ^ n

/-- The pseudocode of R252: the number of the first check that fails, 0 if the word is accepted. -/
def firstError (k : Nat) (w : Word) : Nat :=
  let opc := bits w 26 6
  let v := bits w 25 1
  let d := bits w 16 4
  let n := if v = 1 then k else 1
  let formatS := [0x00, 0x01, 0x02, 0x03, 0x04].contains opc
  let formatP3 := [0x08, 0x09, 0x12, 0x13, 0x14].contains opc
  let formatP2 := [0x0A, 0x0B, 0x0C, 0x10, 0x11].contains opc
  let formatB := [0x18, 0x19, 0x1C].contains opc
  let formatBD := [0x1A, 0x1B].contains opc
  let reserved :=
    if formatS then bits w 0 25
    else if formatP3 then bits w 0 10
    else if formatP2 then bits w 0 15
    else bits w 12 4
  let slotEnds :=
    if opc = 0x14 then [bits w 15 5 + k, bits w 10 5 + k]
    else if formatP3 then [bits w 20 5 + n, bits w 15 5 + n, bits w 10 5 + n]
    else if formatP2 then [bits w 20 5 + n, bits w 15 5 + n]
    else if formatB || formatBD then [bits w 20 5 + n]
    else []
  let len := if opc = 0x18 ∨ opc = 0x19 then 384 else if opc = 0x1C then 128 else 32 * d
  if !(formatS || formatP3 || formatP2 || formatB || formatBD) then 1
  else if v = 1 ∧ (formatS ∨ opc = 0x14) then 2
  else if reserved ≠ 0 then 3
  else if formatB ∧ d ≠ 0 then 4
  else if formatBD ∧ (d = 0 ∨ 11 < d) then 4
  else if slotEnds.any (32 < ·) then 5
  else if (formatB || formatBD) ∧ 4096 < bits w 0 12 + n * len then 6
  else 0

/-- The rows of R87: opcode and mask. -/
def maskRows : List (Nat × Word) :=
  ([0x00, 0x01, 0x02, 0x03, 0x04].map fun o => (o, 0xFFFFFFFF)) ++
  ([0x08, 0x09, 0x12, 0x13].map fun o => (o, 0xFC0003FF)) ++ [(0x14, 0xFE0003FF)] ++
  ([0x0A, 0x0B, 0x0C, 0x10, 0x11].map fun o => (o, 0xFC007FFF)) ++
  ([0x18, 0x19, 0x1C].map fun o => (o, 0xFC0FF000)) ++ ([0x1A, 0x1B].map fun o => (o, 0xFC00F000))

/-- A word matches a row of R87: the masked bits are `OPC << 26`, and D is 1 to 11 on COMPRESS and DECOMPRESS. -/
def matchesRow (w : Word) (row : Nat × Word) : Prop :=
  w &&& row.2 = BitVec.ofNat 32 (row.1 * 2 ^ 26) ∧ ((row.1 = 0x1A ∨ row.1 = 0x1B) → LegalWidth (bits w 16 4))

/-! ## Sources and destinations -/

/-- The slots a command reads (R22). -/
def sourceSlots (k : BitVec 4) : Instr → List Nat
  | .nop => []
  | .montred => []
  | .barred => []
  | .csubq => []
  | .fqmul => []
  | .padd v _ r1 r2 => List.range' r1.toNat (repeatCount k v) ++ List.range' r2.toNat (repeatCount k v)
  | .psub v _ r1 r2 => List.range' r1.toNat (repeatCount k v) ++ List.range' r2.toNat (repeatCount k v)
  | .preduce v _ r1 => List.range' r1.toNat (repeatCount k v)
  | .pcsubq v _ r1 => List.range' r1.toNat (repeatCount k v)
  | .tomont v _ r1 => List.range' r1.toNat (repeatCount k v)
  | .ntt v _ r1 => List.range' r1.toNat (repeatCount k v)
  | .invntt v _ r1 => List.range' r1.toNat (repeatCount k v)
  | .pmul v _ r1 r2 => List.range' r1.toNat (repeatCount k v) ++ List.range' r2.toNat (repeatCount k v)
  | .pmac v rd r1 r2 => List.range' rd.toNat (repeatCount k v) ++
      (List.range' r1.toNat (repeatCount k v) ++ List.range' r2.toNat (repeatCount k v))
  | .pvdot _ r1 r2 => List.range' r1.toNat k.toNat ++ List.range' r2.toNat k.toNat
  | .pack12 v p _ => List.range' p.toNat (repeatCount k v)
  | .unpack12 _ _ _ => []
  | .compress v p _ _ => List.range' p.toNat (repeatCount k v)
  | .decompress _ _ _ _ => []
  | .cbd2 _ _ _ => []

/-- The BUF bytes a command reads (R22, R65). -/
def sourceBytes (k : BitVec 4) : Instr → List Nat
  | .unpack12 v _ a => List.range' a.toNat (384 * repeatCount k v)
  | .decompress v _ d a => List.range' a.toNat (32 * d.toNat * repeatCount k v)
  | .cbd2 v _ a => List.range' a.toNat (128 * repeatCount k v)
  | _ => []

/-- The slots an aborted command loses, as the first and the number of them (R293). -/
def lostSlots (k : BitVec 4) : Instr → Nat × Nat
  | .padd v rd _ _ => (rd.toNat, repeatCount k v)
  | .psub v rd _ _ => (rd.toNat, repeatCount k v)
  | .preduce v rd _ => (rd.toNat, repeatCount k v)
  | .pcsubq v rd _ => (rd.toNat, repeatCount k v)
  | .tomont v rd _ => (rd.toNat, repeatCount k v)
  | .ntt v rd _ => (rd.toNat, repeatCount k v)
  | .invntt v rd _ => (rd.toNat, repeatCount k v)
  | .pmul v rd _ _ => (rd.toNat, repeatCount k v)
  | .pmac v rd _ _ => (rd.toNat, repeatCount k v)
  | .pvdot rd _ _ => (rd.toNat, 1)
  | .unpack12 v p _ => (p.toNat, repeatCount k v)
  | .decompress v p _ _ => (p.toNat, repeatCount k v)
  | .cbd2 v p _ => (p.toNat, repeatCount k v)
  | _ => (0, 0)

/-- The BUF bytes an aborted command loses, as the first and the number of them (R293). -/
def lostBytes (k : BitVec 4) : Instr → Nat × Nat
  | .pack12 v _ a => (a.toNat, repeatCount k v * 384)
  | .compress v _ d a => (a.toNat, repeatCount k v * (32 * d.toNat))
  | _ => (0, 0)

/-- The offsets of the window that a host may not access while BUSY = 1 (R72). -/
def blockedOffset (off : Nat) : Prop :=
  (0x018 ≤ off ∧ off < 0x024) ∨ (0x1000 ≤ off ∧ off < 0x2000) ∨ (0x4000 ≤ off ∧ off < 0x8000)

/-- An offset of the window that is a multiple of 4 (R60, R62). -/
def wordOffset (off : Nat) : Prop := off < 0x8000 ∧ off % 4 = 0

/-- The event a step takes is a power-on reset, or a host write of CTRL with bit 31 = 1 (R290, R292). -/
def takesReset (s : State) : Prop :=
  (∃ rest, s.events = .powerOnReset :: rest) ∨
  ∃ t v rest, s.events = .transaction t :: rest ∧ t.addr = s.build.base + 0x008 ∧ t.data = some v ∧ v.getLsbD 31 = true

/-- The engine has its turn while BUSY = 1 (R297). That it has it when no event is left is the model's schedule (log
entry 5). -/
def takesCompletion (s : State) : Prop := s.busy = true ∧ (s.events = [] ∨ ∃ rest, s.events = .complete :: rest)

end Sys2Proof.Claims

open Sys2Proof.Claims

/-! ## Encoding and decoding -/

/-- Every command with a legal width, at every value of its operands, is decoded from its word (R80 to R86). -/
def Obligations.DecodeEncodeAgree : Prop := ∀ i : Instr, widthLegal i = true → decode (encode i) = .ok i

/-- A word that decodes is the word of its command, so no two legal words mean the same (R89). -/
def Obligations.LegalWordsHaveOneMeaning : Prop :=
  (∀ w i, decode w = .ok i → encode i = w) ∧ ∀ w w' i, decode w = .ok i → decode w' = .ok i → w = w'

/-- A word decodes exactly when it matches a row of R87, and the row's opcode is its command's. -/
def Obligations.MatchAndMaskTable : Prop :=
  (∀ w row, row ∈ maskRows → matchesRow w row → ∃ i, decode w = .ok i ∧ bits (encode i) 26 6 = row.1) ∧
  ∀ w i, decode w = .ok i → ∃ row ∈ maskRows, matchesRow w row

/-- Words written out in spec/30_encoding.md and the command rules decode to their commands. -/
def Obligations.SpecWordsDecode : Prop :=
  decode 0x6A4A0100 = .ok (.compress true 4 10 0x100) ∧ decode 0x40100000 = .ok (.ntt false 1 0) ∧
  decode 0x50A00C00 = .ok (.pvdot 10 0 3) ∧ decode 0x70500200 = .ok (.cbd2 false 5 0x200) ∧
  decode 0x22100000 = .ok (.padd true 1 0 0) ∧ decode 0x6C610000 = .ok (.decompress false 6 1 0) ∧
  decode 0x10000000 = .ok .fqmul ∧ decode 0x00000000 = .ok .nop

/-- A CMD write made while BUSY = 0: CMD and DONE, then the first failing check of R252 recorded by R253, or the command
in flight and nothing else changed (R300). -/
def Obligations.CmdWriteChecksInOrder : Prop :=
  ∀ (s : State) (w : Word), s.busy = false →
    hostWrite 0x010 w s =
      (let s1 := { s with cmd := w, done := false }
       let e := firstError s.build.k.toNat w
       if e = 0 then { s1 with inFlight := some w }
       else if s.err then s1
       else { s1 with err := true, errCode := BitVec.ofNat 4 e, errInfo := w })

/-- The step of a state whose in-flight word decodes is that command's completion, once the event is taken (R301), and a
host transaction event is performed (R258). The schedule is the model's choice (log entry 5): that the engine has its turn
when `events` is empty, and that a step of an idle engine changes nothing but the event it takes. -/
def Obligations.StepRunsDecodedCommand : Prop :=
  (∀ s w i, s.inFlight = some w → decode w = .ok i →
    (s.events = [] → step s = exec i s) ∧
    ∀ rest, s.events = .complete :: rest → step s = exec i { s with events := rest }) ∧
  (∀ s, s.inFlight = none →
    (s.events = [] → step s = .next s) ∧
    ∀ rest, s.events = .complete :: rest → step s = .next { s with events := rest }) ∧
  ∀ s t rest, s.events = .transaction t :: rest → step s = transact t { s with events := rest }

/-! ## The reduction functions -/

/-- MONT on every signed 32-bit integer: the exact quotient, the contract domain, and the congruence exactly where the
quotient fits (R120). -/
def Obligations.MontgomeryContract : Prop :=
  ∀ a : Int, -2 ^ 31 ≤ a → a < 2 ^ 31 →
    (a - (s16 (a * 62209)).toInt * 3329) % 2 ^ 16 = 0 ∧
    -34432 ≤ (a - (s16 (a * 62209)).toInt * 3329) / 2 ^ 16 ∧
    (a - (s16 (a * 62209)).toInt * 3329) / 2 ^ 16 ≤ 34432 ∧
    mont a = s16 ((a - (s16 (a * 62209)).toInt * 3329) / 2 ^ 16) ∧
    (-109084672 ≤ a → a ≤ 109084671 →
      -3328 ≤ (mont a).toInt ∧ (mont a).toInt ≤ 3328 ∧ (mont a).toInt % 3329 = a * 169 % 3329) ∧
    ((mont a).toInt % 3329 = a * 169 % 3329 ↔
      -32768 ≤ (a - (s16 (a * 62209)).toInt * 3329) / 2 ^ 16 ∧
      (a - (s16 (a * 62209)).toInt * 3329) / 2 ^ 16 ≤ 32767)

/-- FQMUL is MONT of the exact product, congruent to a·b·R^-1 wherever the product is in the domain (R121). -/
def Obligations.MontgomeryProduct : Prop :=
  ∀ a b : Coef,
    fqmul a b = mont (a.toInt * b.toInt) ∧
    -1073709056 ≤ a.toInt * b.toInt ∧ a.toInt * b.toInt ≤ 1073741824 ∧
    (|a.toInt * b.toInt| ≤ 109084671 → (fqmul a b).toInt % 3329 = a.toInt * b.toInt * 169 % 3329) ∧
    (-3328 ≤ a.toInt → a.toInt ≤ 3328 → |a.toInt * b.toInt| ≤ 109084671) ∧
    (-3328 ≤ b.toInt → b.toInt ≤ 3328 → |a.toInt * b.toInt| ≤ 109084671)

/-- BARRETT is the residue in [0, Q) of every 16-bit input, and the estimate before the correction is in [0, Q] (R122). -/
def Obligations.BarrettResidue : Prop :=
  ∀ a : Coef,
    (barrett a).toInt = a.toInt % 3329 ∧
    0 ≤ a.toInt - 20159 * a.toInt / 2 ^ 26 * 3329 ∧ a.toInt - 20159 * a.toInt / 2 ^ 26 * 3329 ≤ 3329

/-- CSUBQ subtracts Q once when a ≥ Q, for every 16-bit input: the 17-bit difference does not wrap (R123). -/
def Obligations.CsubqSubtractsOnce : Prop :=
  ∀ a : Coef,
    (csubq a).toInt = (if 3329 ≤ a.toInt then a.toInt - 3329 else a.toInt) ∧
    (BitVec.ofInt 17 (a.toInt - 3329)).toInt = a.toInt - 3329 ∧
    (0 ≤ a.toInt → a.toInt < 6658 → 0 ≤ (csubq a).toInt ∧ (csubq a).toInt < 3329) ∧
    (6658 ≤ a.toInt → 3329 ≤ (csubq a).toInt)

/-! ## The scalar commands -/

/-- NOP completes and changes no data state: BUSY ← 0, DONE ← 1 and CMDCOUNT one higher modulo 2^32 (R124, R301); and this is
the `complete` that the statements about the other commands name. -/
def Obligations.NopCompletes : Prop :=
  ∀ s : State,
    exec .nop s = .next { s with inFlight := none, done := true, cmdCount := s.cmdCount + 1 } ∧
    complete s = { s with inFlight := none, done := true, cmdCount := s.cmdCount + 1 } ∧ (complete s).busy = false

/-- MONTRED writes MONT(s32(SA)) to SR and nothing else (R125). -/
def Obligations.MontredWritesSr : Prop :=
  ∀ s : State, exec .montred s = .next { complete s with sr := mont s.sa.toInt }

/-- BARRED writes the residue of the low half of SA to SR and nothing else (R126). -/
def Obligations.BarredWritesResidue : Prop :=
  ∀ s : State, ∃ r : Coef, exec .barred s = .next { complete s with sr := r } ∧
    r.toInt = (s.sa.extractLsb' 0 16).toInt % 3329

/-- CSUBQ writes the low half of SA, less Q once when it is at least Q, to SR and nothing else (R127). -/
def Obligations.CsubqCommandWritesSr : Prop :=
  ∀ s : State, ∃ r : Coef, exec .csubq s = .next { complete s with sr := r } ∧
    r.toInt = (if 3329 ≤ (s.sa.extractLsb' 0 16).toInt then (s.sa.extractLsb' 0 16).toInt - 3329
      else (s.sa.extractLsb' 0 16).toInt)

/-- FQMUL writes the Montgomery product of the low halves of SA and SB to SR and nothing else (R128). -/
def Obligations.FqmulWritesSr : Prop :=
  ∀ s : State, exec .fqmul s =
    .next { complete s with sr := mont ((s.sa.extractLsb' 0 16).toInt * (s.sb.extractLsb' 0 16).toInt) }

/-! ## Coefficient-wise commands -/

/-- PADD writes the wrapping sum of the source coefficients as they were (R190, R230). -/
def Obligations.PaddWrapsSums : Prop :=
  ∀ (v : Bool) (rd rs1 rs2 : SlotNo) (s : State) (a b : Nat → Poly),
    (Instr.padd v rd rs1 rs2).wellFormed s.build.k = true →
    SlotsHold s rs1.toNat (s.count v) a → SlotsHold s rs2.toNat (s.count v) b →
    WritesSlots (.padd v rd rs1 rs2) s rd.toNat (s.count v) fun j q =>
      ∀ i < 256, coefAt q i = (coefAt (a j) i + coefAt (b j) i).bmod (2 ^ 16)

/-- PSUB writes the wrapping difference RS1 − RS2 of the source coefficients as they were (R191, R230). -/
def Obligations.PsubWrapsDifferences : Prop :=
  ∀ (v : Bool) (rd rs1 rs2 : SlotNo) (s : State) (a b : Nat → Poly),
    (Instr.psub v rd rs1 rs2).wellFormed s.build.k = true →
    SlotsHold s rs1.toNat (s.count v) a → SlotsHold s rs2.toNat (s.count v) b →
    WritesSlots (.psub v rd rs1 rs2) s rd.toNat (s.count v) fun j q =>
      ∀ i < 256, coefAt q i = (coefAt (a j) i - coefAt (b j) i).bmod (2 ^ 16)

/-- PREDUCE writes each source coefficient modulo Q (R192, R230). -/
def Obligations.PreduceWritesResidues : Prop :=
  ∀ (v : Bool) (rd rs1 : SlotNo) (s : State) (a : Nat → Poly),
    (Instr.preduce v rd rs1).wellFormed s.build.k = true → SlotsHold s rs1.toNat (s.count v) a →
    WritesSlots (.preduce v rd rs1) s rd.toNat (s.count v) fun j q =>
      ∀ i < 256, coefAt q i = coefAt (a j) i % 3329

/-- PCSUBQ subtracts Q once from each source coefficient that is at least Q (R193, R230). -/
def Obligations.PcsubqSubtractsOnce : Prop :=
  ∀ (v : Bool) (rd rs1 : SlotNo) (s : State) (a : Nat → Poly),
    (Instr.pcsubq v rd rs1).wellFormed s.build.k = true → SlotsHold s rs1.toNat (s.count v) a →
    WritesSlots (.pcsubq v rd rs1) s rd.toNat (s.count v) fun j q =>
      ∀ i < 256, coefAt q i = if 3329 ≤ coefAt (a j) i then coefAt (a j) i - 3329 else coefAt (a j) i

/-- TOMONT writes each source coefficient times R = 2^16, modulo Q (R194, R230). -/
def Obligations.TomontScales : Prop :=
  ∀ (v : Bool) (rd rs1 : SlotNo) (s : State) (a : Nat → Poly),
    (Instr.tomont v rd rs1).wellFormed s.build.k = true → SlotsHold s rs1.toNat (s.count v) a →
    WritesSlots (.tomont v rd rs1) s rd.toNat (s.count v) fun j q =>
      ∀ i < 256, coefAt q i = coefAt (a j) i * 2 ^ 16 % 3329

/-! ## Transforms and NTT-domain products -/

/-- NTT writes the forward transform of each source, canonical for every input (R153, R230). -/
def Obligations.NttWritesTransform : Prop :=
  ∀ (v : Bool) (rd rs1 : SlotNo) (s : State) (a : Nat → Poly),
    (Instr.ntt v rd rs1).wellFormed s.build.k = true → SlotsHold s rs1.toNat (s.count v) a →
    WritesSlots (.ntt v rd rs1) s rd.toNat (s.count v) fun j q => q = nttPseudocode (a j) ∧ Canonical q

/-- INVNTT writes the inverse transform of each source, canonical for every input (R155, R230). -/
def Obligations.InvnttWritesTransform : Prop :=
  ∀ (v : Bool) (rd rs1 : SlotNo) (s : State) (a : Nat → Poly),
    (Instr.invntt v rd rs1).wellFormed s.build.k = true → SlotsHold s rs1.toNat (s.count v) a →
    WritesSlots (.invntt v rd rs1) s rd.toNat (s.count v) fun j q => q = invnttPseudocode (a j) ∧ Canonical q

/-- PMUL writes BARRETT of the pairwise product of the sources (R157, R230). -/
def Obligations.PmulWritesProducts : Prop :=
  ∀ (v : Bool) (rd rs1 rs2 : SlotNo) (s : State) (a b : Nat → Poly),
    (Instr.pmul v rd rs1 rs2).wellFormed s.build.k = true →
    SlotsHold s rs1.toNat (s.count v) a → SlotsHold s rs2.toNat (s.count v) b →
    WritesSlots (.pmul v rd rs1 rs2) s rd.toNat (s.count v) fun j q =>
      ∀ i < 256, coefAt q i = coefAt (basemulRaw (a j) (b j)) i % 3329

/-- PMAC writes BARRETT of the wrapping sum of the accumulator, as it was, and the pairwise product (R158, R230). -/
def Obligations.PmacAccumulates : Prop :=
  ∀ (v : Bool) (rd rs1 rs2 : SlotNo) (s : State) (c a b : Nat → Poly),
    (Instr.pmac v rd rs1 rs2).wellFormed s.build.k = true → SlotsHold s rd.toNat (s.count v) c →
    SlotsHold s rs1.toNat (s.count v) a → SlotsHold s rs2.toNat (s.count v) b →
    WritesSlots (.pmac v rd rs1 rs2) s rd.toNat (s.count v) fun j q =>
      ∀ i < 256, coefAt q i = (coefAt (c j) i + coefAt (basemulRaw (a j) (b j)) i).bmod (2 ^ 16) % 3329

/-- PVDOT writes to the one slot RD BARRETT of the wrapping sum of the K pairwise products (R233). -/
def Obligations.PvdotSumsProducts : Prop :=
  ∀ (rd rs1 rs2 : SlotNo) (s : State) (a b : Nat → Poly),
    (Instr.pvdot rd rs1 rs2).wellFormed s.build.k = true →
    SlotsHold s rs1.toNat s.build.k.toNat a → SlotsHold s rs2.toNat s.build.k.toNat b →
    WritesSlots (.pvdot rd rs1 rs2) s rd.toNat 1 fun _ q =>
      ∀ i < 256, coefAt q i =
        (((List.range s.build.k.toNat).map fun j => coefAt (basemulRaw (a j) (b j)) i).sum).bmod (2 ^ 16) % 3329

/-- The layer-by-layer transform is the loop of R152's pseudocode, and its coefficients are in [0, Q). -/
def Obligations.NttRefinesPseudocode : Prop := ∀ f : Poly, nttF f = nttPseudocode f ∧ Canonical (nttF f)

/-- The layer-by-layer inverse transform is the loop of R154's pseudocode, and its coefficients are in [0, Q). -/
def Obligations.InvnttRefinesPseudocode : Prop :=
  ∀ h : Poly, invnttF h = invnttPseudocode h ∧ Canonical (invnttF h)

/-- The pairwise product: R156's pseudocode at each of the 64 blocks; and wherever the four products of every pair are in
MONT's domain, the range of every coefficient and the congruence with R^-1 times the product modulo
X^2 − 17^(2·brv7(p)+1) of pair `p`. -/
def Obligations.BasemulMultipliesPairs : Prop :=
  ∀ a b : Poly,
    (∀ i < 64, ∀ o zz, ((o = 4 * i ∧ zz = zeta (64 + i)) ∨ (o = 4 * i + 2 ∧ zz = -zeta (64 + i))) →
      get (basemulRaw a b) o = s16 ((fqmul (fqmul (get a (o + 1)) (get b (o + 1))) zz).toInt +
        (fqmul (get a o) (get b o)).toInt) ∧
      get (basemulRaw a b) (o + 1) = s16 ((fqmul (get a o) (get b (o + 1))).toInt +
        (fqmul (get a (o + 1)) (get b o)).toInt)) ∧
    ((∀ p < 128, ∀ x ∈ [2 * p, 2 * p + 1], ∀ y ∈ [2 * p, 2 * p + 1], |coefAt a x * coefAt b y| ≤ 109084671) →
      (∀ i < 256, |coefAt (basemulRaw a b) i| ≤ 6656) ∧
      ∀ p < 128,
        (coefAt (basemulRaw a b) (2 * p) * 2 ^ 16 - (coefAt a (2 * p) * coefAt b (2 * p) +
          coefAt a (2 * p + 1) * coefAt b (2 * p + 1) * 17 ^ (2 * brv7 p + 1))) % 3329 = 0 ∧
        (coefAt (basemulRaw a b) (2 * p + 1) * 2 ^ 16 - (coefAt a (2 * p) * coefAt b (2 * p + 1) +
          coefAt a (2 * p + 1) * coefAt b (2 * p))) % 3329 = 0)

/-- The twiddle ROM: 128 entries by the formula of R150, in [0, Q), summing to 211522, each multiplying by its power of
17. -/
def Obligations.TwiddleTable : Prop :=
  zetas.length = 128 ∧ zetas.sum = 211522 ∧
  (∀ i < 128, zetas.getD i 0 = 65536 * 17 ^ brv7 i % 3329) ∧
  ∀ i < 128, ∀ x : Coef, (fqmul (zeta i) x).toInt % 3329 = x.toInt * 17 ^ brv7 i % 3329

/-- The inverse transform of the forward transform is the polynomial times R mod Q = 2285 (R159, property (a)). -/
def Obligations.InverseTransformScales : Prop :=
  ∀ f : Poly, Canonical f → ∀ i < 256, coefAt (invnttF (nttF f)) i = 2285 * coefAt f i % 3329

/-! ## Serialization, compression and sampling -/

/-- PackBits places bit j of value i at stream bit d·i + j, and UnpackBits is its inverse (R66). -/
def Obligations.BitStreamPacking : Prop :=
  ∀ d : Nat, 1 ≤ d → d ≤ 12 →
    (∀ t : Poly, (packBits d t).length = 32 * d ∧
      ∀ i < 256, ∀ j < d, ((packBits d t).getD ((d * i + j) / 8) 0).getLsbD ((d * i + j) % 8) = (get t i).getLsbD j) ∧
    (∀ b : List Byte, b.length = 32 * d → ∀ i < 256, (get (unpackBits d b) i).toNat < 2 ^ d ∧
      ∀ j < d, (get (unpackBits d b) i).getLsbD j = (b.getD ((d * i + j) / 8) 0).getLsbD ((d * i + j) % 8)) ∧
    ∀ t : Poly, (∀ i < 256, (get t i).toNat < 2 ^ d) → unpackBits d (packBits d t) = t

/-- PACK12 stores each coefficient modulo Q in 12 bits and changes no slot (R195, R231). -/
def Obligations.Pack12StoresResidues : Prop :=
  ∀ (v : Bool) (p : SlotNo) (addr : BufAddr) (s : State) (a : Nat → Poly),
    (Instr.pack12 v p addr).wellFormed s.build.k = true → SlotsHold s p.toNat (s.count v) a →
    StoresImages (.pack12 v p addr) s addr.toNat (s.count v) 12 fun j i => (coefAt (a j) i % 3329).toNat

/-- UNPACK12 writes the raw 12-bit fields, not reduced, and changes no byte of BUF (R196, R231). -/
def Obligations.Unpack12ReturnsFields : Prop :=
  ∀ (v : Bool) (p : SlotNo) (addr : BufAddr) (s : State) (b : Nat → Byte),
    (Instr.unpack12 v p addr).wellFormed s.build.k = true → BytesHold s addr.toNat (s.count v * 384) b →
    WritesSlots (.unpack12 v p addr) s p.toNat (s.count v) fun j q =>
      ∀ i < 256, (get q i).toNat < 2 ^ 12 ∧ ∀ u < 12, (get q i).getLsbD u = imageBit b 12 j i u

/-- COMPRESS stores round(x'·2^d / Q) mod 2^d of each coefficient, x' its residue, in d bits (R197, R199, R231). -/
def Obligations.CompressStoresRoundings : Prop :=
  ∀ (v : Bool) (p : SlotNo) (d : Width) (addr : BufAddr) (s : State) (a : Nat → Poly),
    (Instr.compress v p d addr).wellFormed s.build.k = true → SlotsHold s p.toNat (s.count v) a →
    StoresImages (.compress v p d addr) s addr.toNat (s.count v) d.toNat fun j i =>
      (((coefAt (a j) i % 3329) * 2 ^ d.toNat + 1664) / 3329 % 2 ^ d.toNat).toNat

/-- DECOMPRESS writes round(t·Q / 2^d) of each d-bit field t and changes no byte of BUF (R198, R200, R231). -/
def Obligations.DecompressWritesRoundings : Prop :=
  ∀ (v : Bool) (p : SlotNo) (d : Width) (addr : BufAddr) (s : State) (b : Nat → Byte),
    (Instr.decompress v p d addr).wellFormed s.build.k = true →
    BytesHold s addr.toNat (s.count v * (32 * d.toNat)) b →
    WritesSlots (.decompress v p d addr) s p.toNat (s.count v) fun j q =>
      ∀ i < 256, ∃ t, t < 2 ^ d.toNat ∧ (∀ u < d.toNat, t.testBit u = imageBit b d.toNat j i u) ∧
        (get q i).toNat = (t * 3329 + 2 ^ (d.toNat - 1)) / 2 ^ d.toNat

/-- CBD2 writes, for each nibble, (bit0 + bit1) − (bit2 + bit3) as a signed value and changes no byte of BUF (R180, R181,
R231). -/
def Obligations.Cbd2SamplesNibbles : Prop :=
  ∀ (v : Bool) (p : SlotNo) (addr : BufAddr) (s : State) (b : Nat → Byte),
    (Instr.cbd2 v p addr).wellFormed s.build.k = true → BytesHold s addr.toNat (s.count v * 128) b →
    WritesSlots (.cbd2 v p addr) s p.toNat (s.count v) fun j q =>
      ∀ i < 256,
        let bit := fun u => (((b (128 * j + i / 2)).getLsbD (4 * (i % 2) + u)).toNat : Int)
        coefAt q i = (bit 0 + bit 1) - (bit 2 + bit 3)

/-- The sampler's function: coefficient 2m from the low nibble of byte m and 2m+1 from its high nibble (R180). -/
def Obligations.SamplerNibbles : Prop :=
  ∀ b : List Byte, b.length = 128 → ∀ i < 256,
    let bit := fun u => (((b.getD (i / 2) 0).getLsbD (4 * (i % 2) + u)).toNat : Int)
    coefAt (cbd2F b) i = (bit 0 + bit 1) - (bit 2 + bit 3) ∧ -2 ≤ coefAt (cbd2F b) i ∧ coefAt (cbd2F b) i ≤ 2

/-- COMPRESS_d: the integer formula, and the rounding of x'·2^d / Q to the nearest, of which no exact half occurs (R197). -/
def Obligations.CompressRounding : Prop :=
  ∀ (d : Nat) (x : Coef), LegalWidth d →
    ((compressCoef d x).toNat : Int) = ((x.toInt % 3329) * 2 ^ d + 1664) / 3329 % 2 ^ d ∧
    (∃ r : Int, |2 * (r * 3329 - (x.toInt % 3329) * 2 ^ d)| < 3329 ∧ ((compressCoef d x).toNat : Int) = r % 2 ^ d)

/-- DECOMPRESS_d: the integer formula, half rounding up, and a result in [0, Q) (R198). -/
def Obligations.DecompressRounding : Prop :=
  ∀ (d : Nat) (t : Coef), LegalWidth d → t.toNat < 2 ^ d →
    (decompressCoef d t).toNat = (t.toNat * 3329 + 2 ^ (d - 1)) / 2 ^ d ∧ (decompressCoef d t).toNat < 3329 ∧
    2 ^ (d + 1) * (decompressCoef d t).toNat ≤ 2 * t.toNat * 3329 + 2 ^ d ∧
    2 * t.toNat * 3329 < 2 ^ (d + 1) * (decompressCoef d t).toNat + 2 ^ d

/-- Compression loses at most B_d = ⌊(Q + 2^d) / 2^(d+1)⌋ in circular distance, and each bound is reached (R202). -/
def Obligations.CompressionError : Prop :=
  ∀ d : Nat, LegalWidth d →
    let distance := fun x : Coef =>
      min (((decompressCoef d (compressCoef d x)).toInt - x.toInt % 3329) % 3329)
        ((x.toInt % 3329 - (decompressCoef d (compressCoef d x)).toInt) % 3329)
    (∀ x, distance x ≤ (3329 + 2 ^ d) / 2 ^ (d + 1)) ∧ ∃ x, distance x = (3329 + 2 ^ d) / 2 ^ (d + 1)

/-- Message coding: a bit is coefficient 0 or 1665, and a coefficient decodes to 1 exactly for residues 833 to 2496
(R201). -/
def Obligations.MessageCoding : Prop :=
  decompressCoef 1 0 = 0 ∧ decompressCoef 1 1 = 1665 ∧
  ∀ x : Coef, compressCoef 1 x = if 833 ≤ x.toInt % 3329 ∧ x.toInt % 3329 ≤ 2496 then 1 else 0

/-! ## The register window -/

/-- A transaction at offset `off` of the window at BASE is refused exactly when it is not a 32-bit access at a multiple of 4,
and is otherwise the host read or write at that offset (R60, R62). That a bus address has 32 bits and an offset is counted
modulo 2^32 is the model's choice (log entry 3), and so is the fault at every other bus address (log entry 9). -/
def Obligations.AlignedWordsOnly : Prop :=
  ∀ (s : State) (t : Transaction),
    (∀ off : Nat, off < 0x8000 → t.addr = s.build.base + BitVec.ofNat 32 off →
      (t.size = .word → off % 4 = 0 → transact t s = match t.data with
        | none => hostRead off s
        | some v => .next (hostWrite off v s)) ∧
      (¬(t.size = .word ∧ off % 4 = 0) → transact t s = .refused .unsupportedAccess) ∧
      ∀ r, transact t s = .refused r → r = .unsupportedAccess ∧ ¬(t.size = .word ∧ off % 4 = 0)) ∧
    ((∀ off : Nat, off < 0x8000 → t.addr ≠ s.build.base + BitVec.ofNat 32 off) → transact t s = .fault .outsideWindow)

/-- The BUF window is little-endian: a read returns the four bytes or faults where one is unspecified, and a write sets
exactly the four bytes (R63). -/
def Obligations.BufWindowLittleEndian : Prop :=
  ∀ (s : State) (w : Nat), w < 1024 → s.busy = false →
    (∀ b : Nat → Byte, BytesHold s (4 * w) 4 b →
      hostRead (0x1000 + 4 * w) s = .next (respond (b 3 ++ b 2 ++ b 1 ++ b 0) s)) ∧
    ((∃ i < 4, Memory.read s.buf (4 * w + i) = none) → hostRead (0x1000 + 4 * w) s = .fault .readUnspecified) ∧
    ∀ v : Word, hostWrite (0x1000 + 4 * w) v s = { s with buf := (hostWrite (0x1000 + 4 * w) v s).buf } ∧
      BytesHold (hostWrite (0x1000 + 4 * w) v s) (4 * w) 4 (fun i => v.extractLsb' (8 * i) 8) ∧
      BytesKeptOutside s (hostWrite (0x1000 + 4 * w) v s) (4 * w) 4

/-- The POLY window holds two coefficients a word, the even one low: a read returns them or faults where one is
unspecified, and a write sets exactly those two (R64). -/
def Obligations.PolyWindowTwoCoefficients : Prop :=
  ∀ (s : State) (r i : Nat), r < 32 → i < 128 → s.busy = false →
    (∀ lo hi, SlotFile.readCoef s.slots r (2 * i) = some lo → SlotFile.readCoef s.slots r (2 * i + 1) = some hi →
      hostRead (0x4000 + 512 * r + 4 * i) s = .next (respond (hi ++ lo) s)) ∧
    (SlotFile.readCoef s.slots r (2 * i) = none ∨ SlotFile.readCoef s.slots r (2 * i + 1) = none →
      hostRead (0x4000 + 512 * r + 4 * i) s = .fault .readUnspecified) ∧
    ∀ v : Word, let t := hostWrite (0x4000 + 512 * r + 4 * i) v s
      t = { s with slots := t.slots } ∧
      ∀ x y, SlotFile.readCoef t.slots x y =
        if x = r ∧ y = 2 * i then some (v.extractLsb' 0 16)
        else if x = r ∧ y = 2 * i + 1 then some (v.extractLsb' 16 16)
        else SlotFile.readCoef s.slots x y

/-- While BUSY = 1 a read of SA, SB, SR or a data window returns 0 and a write is ignored, each raising error 8 and leaving
the command in flight; every other word of the window stays accessible with its own effect (R72). -/
def Obligations.BlockedWhileBusy : Prop :=
  ∀ (s : State) (off : Nat), s.busy = true → wordOffset off →
    (blockedOffset off →
      hostRead off s = .next (respond 0 (raiseError .accessWhileBusy (BitVec.ofNat 32 off) s)) ∧
      ∀ v, hostWrite off v s = raiseError .accessWhileBusy (BitVec.ofNat 32 (2 ^ 31 + off)) s) ∧
    (¬blockedOffset off →
      (∃ x, hostRead off s = .next (respond x s)) ∧ ∀ v, hostWrite off v s = writeRegion (regionAt off) v s)

/-- In every state writes to ID, PARAM, ERRINFO and CMDCOUNT are ignored and raise no error, and so are writes to reserved
offsets, which read 0; a write to SR is ignored while BUSY = 0, and is blocked by R72 while BUSY = 1 (R27, R61). -/
def Obligations.ReadOnlyAndReserved : Prop :=
  ∀ (s : State) (v : Word),
    (∀ off ∈ [0x000, 0x004, 0x014, 0x024], hostWrite off v s = s) ∧ (s.busy = false → hostWrite 0x020 v s = s) ∧
    ∀ off, wordOffset off → (0x028 ≤ off ∧ off < 0x1000) ∨ (0x2000 ≤ off ∧ off < 0x4000) →
      hostWrite off v s = s ∧ hostRead off s = .next (respond 0 s)

/-- ID reads 0x414C4301 and PARAM the build's parameters, in every state, and no step changes them (R10, R33, R34). -/
def Obligations.IdAndParamConstant : Prop :=
  (∀ s : State, hostRead 0x000 s = .next (respond 0x414C4301 s) ∧
    ∃ x : Word, hostRead 0x004 s = .next (respond x s) ∧ bits x 0 4 = s.build.k.toNat ∧ bits x 4 4 = 2 ∧
      bits x 8 8 = 32 ∧ bits x 16 4 = 12 ∧ bits x 20 12 = 0xD01 ∧ (s.build.k = 3 → x = 0xD01C2023)) ∧
  ∀ s t : State, step s = .next t → t.build = s.build

/-- The scalar registers: SA and SB are written and read whole and SR reads sign-extended, while BUSY = 0 (R35 to R37). -/
def Obligations.ScalarRegisterAccess : Prop :=
  ∀ (s : State) (v : Word), s.busy = false →
    hostWrite 0x018 v s = { s with sa := v } ∧ hostWrite 0x01C v s = { s with sb := v } ∧
    hostRead 0x018 s = .next (respond s.sa s) ∧ hostRead 0x01C s = .next (respond s.sb s) ∧
    hostRead 0x020 s = .next (respond (BitVec.ofInt 32 s.sr.toInt) s)

/-- The first error is kept and later ones are lost (R253), with the numbers of R251. -/
def Obligations.FirstErrorKept : Prop :=
  (∀ e info s, s.err = false →
    raiseError e info s = { s with err := true, errCode := errorCode e, errInfo := info }) ∧
  (∀ e info s, s.err = true → raiseError e info s = s) ∧
  [CmdError.illegalOpcode, .illegalV, .reservedBits, .illegalD, .slotRange, .bufRange, .cmdWhileBusy,
    .accessWhileBusy].map errorCode = [1, 2, 3, 4, 5, 6, 7, 8]

/-- The control registers at every time: the bits a read of STATUS and of CTRL returns, the W1C write of STATUS and the write
of CTRL with bit 31 = 0 (R28, R29, R254, R256), and the values a read of CMD, ERRINFO and CMDCOUNT returns (R30 to R32). -/
def Obligations.StatusAndCtrlAccess : Prop :=
  ∀ s : State,
    (∃ x : Word, hostRead 0x00C s = .next (respond x s) ∧ x.getLsbD 0 = s.busy ∧ x.getLsbD 1 = s.done ∧
      x.getLsbD 2 = s.err ∧ bits x 3 5 = 0 ∧ bits x 8 4 = s.errCode.toNat ∧
      x.getLsbD 12 = ((s.done && s.ieDone) || (s.err && s.ieErr)) ∧ bits x 13 19 = 0) ∧
    (∃ x : Word, hostRead 0x008 s = .next (respond x s) ∧ x.getLsbD 0 = s.ieDone ∧ x.getLsbD 1 = s.ieErr ∧
      bits x 2 30 = 0) ∧
    hostRead 0x010 s = .next (respond s.cmd s) ∧ hostRead 0x014 s = .next (respond s.errInfo s) ∧
    hostRead 0x024 s = .next (respond s.cmdCount s) ∧
    (∀ v : Word, hostWrite 0x00C v s =
      { s with
        done := s.done && !v.getLsbD 1
        err := s.err && !v.getLsbD 2
        errCode := if v.getLsbD 2 then 0 else s.errCode
        errInfo := if v.getLsbD 2 then 0 else s.errInfo }) ∧
    ∀ v : Word, v.getLsbD 31 = false →
      hostWrite 0x008 v s = { s with ieDone := v.getLsbD 0, ieErr := v.getLsbD 1 }

/-- A CMD write while BUSY = 1 is refused as error 7: CMD, the command in flight and everything but the error record stay
(R30, R306). -/
def Obligations.CmdWriteWhileBusy : Prop :=
  ∀ (s : State) (w : Word), s.busy = true →
    hostWrite 0x010 w s =
      if s.err then s else { s with err := true, errCode := 7, errInfo := w }

/-- While BUSY = 1 no host write but a soft reset changes a slot, a byte of BUF, SA, SB, SR, CMDCOUNT or the command in
flight, so the inputs at completion are those at acceptance (R301, R304). -/
def Obligations.BusyKeepsInputs : Prop :=
  ∀ (s : State) (off : Nat) (v : Word), s.busy = true → wordOffset off → ¬(off = 0x008 ∧ v.getLsbD 31 = true) →
    let t := hostWrite off v s
    t.slots = s.slots ∧ t.buf = s.buf ∧ t.sa = s.sa ∧ t.sb = s.sb ∧ t.sr = s.sr ∧ t.cmdCount = s.cmdCount ∧
    t.inFlight = s.inFlight ∧ t.cmd = s.cmd ∧ t.build = s.build

/-! ## Resets -/

/-- Power-on reset, from any state: every register is 0, no command is in flight, every coefficient and every byte is
unspecified, and the state is a clean entry; `State.reset` is such a state (R42, R290, R296). -/
def Obligations.PowerOnState : Prop :=
  (∀ (s : State) (rest : List Event), s.events = .powerOnReset :: rest →
    step s = .next { State.resetOf s.build with events := rest }) ∧
  ∀ b : Config.Build, let t := State.resetOf b
    t.build = b ∧ t.sa = 0 ∧ t.sb = 0 ∧ t.sr = 0 ∧ t.ieDone = false ∧ t.ieErr = false ∧ t.done = false ∧
    t.err = false ∧ t.errCode = 0 ∧ t.errInfo = 0 ∧ t.cmd = 0 ∧ t.cmdCount = 0 ∧ t.inFlight = none ∧
    (∀ r i, SlotFile.readCoef t.slots r i = none) ∧ (∀ x, Memory.read t.buf x = none) ∧ CleanEntry t ∧
    State.reset = State.resetOf State.reset.build

/-- A soft reset, whether BUSY is 0 or 1: the registers become 0 and, with no command in flight, the slots and BUF are
unchanged (R292). -/
def Obligations.SoftResetClearsRegisters : Prop :=
  ∀ (s : State) (v : Word), v.getLsbD 31 = true →
    let t := hostWrite 0x008 v s
    t.sa = 0 ∧ t.sb = 0 ∧ t.sr = 0 ∧ t.ieDone = false ∧ t.ieErr = false ∧ t.done = false ∧ t.err = false ∧
    t.errCode = 0 ∧ t.errInfo = 0 ∧ t.cmd = 0 ∧ t.cmdCount = 0 ∧ t.inFlight = none ∧ t.build = s.build ∧
    t.events = s.events ∧ (s.busy = false → t.slots = s.slots ∧ t.buf = s.buf)

/-- A soft reset while a legal command is in flight makes every destination of it unspecified and keeps every other slot
and byte (R293). -/
def Obligations.AbortLosesDestinations : Prop :=
  ∀ (s : State) (v w : Word) (i : Instr), v.getLsbD 31 = true → s.inFlight = some w →
    issueCheck s.build.k w = .ok i →
    let t := hostWrite 0x008 v s
    (∀ r < 32, t.slots[r]? =
      if (lostSlots s.build.k i).1 ≤ r ∧ r < (lostSlots s.build.k i).1 + (lostSlots s.build.k i).2
      then some SlotData.unspecified else s.slots[r]?) ∧
    ∀ x, Memory.read t.buf x =
      if (lostBytes s.build.k i).1 ≤ x ∧ x < (lostBytes s.build.k i).1 + (lostBytes s.build.k i).2
      then none else Memory.read s.buf x

/-! ## Whole-machine rules -/

/-- A legal command faults exactly when one of its source slots or bytes is unspecified, its only fault is ReadUnspecified
and it is never refused (R21, R22); a command with an illegal width or range is refused (the model's choice, log entry 10).
A word passes the checks of a CMD write exactly when it decodes to a legal command, so what a CMD write puts in flight is
never refused (R250, R252). -/
def Obligations.UnspecifiedSourceFaults : Prop :=
  (∀ (i : Instr) (s : State),
    (i.wellFormed s.build.k = true →
      ((exec i s = .fault .readUnspecified) ↔
        (∃ r ∈ sourceSlots s.build.k i, SlotFile.readPoly s.slots r = none) ∨
        ∃ x ∈ sourceBytes s.build.k i, Memory.read s.buf x = none) ∧
      (∀ f, exec i s = .fault f → f = .readUnspecified) ∧ ∀ r, exec i s ≠ .refused r) ∧
    (i.wellFormed s.build.k = false → exec i s = .refused .illegalCommand)) ∧
  (∀ (k : BitVec 4) (w : Word) (i : Instr),
    issueCheck k w = .ok i ↔ decode w = .ok i ∧ i.wellFormed k = true) ∧
  ∀ (s : State) (w : Word), s.busy = false → (hostWrite 0x010 w s).busy = true →
    (hostWrite 0x010 w s).inFlight = some w ∧ ∃ i, decode w = .ok i ∧ i.wellFormed s.build.k = true

/-- CMDCOUNT goes up by one, modulo 2^32, in the steps that complete a command, is set to 0 by a reset, and stays in every
other step (R23, R32). Which steps complete a command is the model's schedule (log entry 5). -/
def Obligations.CmdCountCountsCompletions : Prop :=
  ∀ s t : State, step s = .next t →
    (takesCompletion s → t.cmdCount = s.cmdCount + 1) ∧ (takesReset s → t.cmdCount = 0) ∧
    (¬takesCompletion s → ¬takesReset s → t.cmdCount = s.cmdCount)

/-- Slots change only in a completion, in a host write to the POLY window while BUSY = 0, and in a reset (R20). Which
steps complete a command is the model's schedule (log entry 5). -/
def Obligations.OnlyTheseStepsChangeSlots : Prop :=
  ∀ s t : State, step s = .next t → t.slots ≠ s.slots →
    takesCompletion s ∨ takesReset s ∨
    ∃ x off v rest, s.events = .transaction x :: rest ∧ x.data = some v ∧ s.busy = false ∧
      x.addr = s.build.base + BitVec.ofNat 32 off ∧ 0x4000 ≤ off ∧ off < 0x8000

/-- Every step from a state that meets the invariant gives a state that meets it. -/
def Obligations.StepKeepsInvariant : Prop := ∀ s t : State, s.Inv → step s = .next t → t.Inv

/-- The state after reset meets the invariant. It rests on the model's choice of K (log entry 2), which is a legal one. -/
def Obligations.ResetMeetsInvariant : Prop := State.reset.Inv
end

