-- ==== Sys2Proof/Laws/Memory.lean ====
section
/-! SUPPORT. What every operation on BUF can do: what a byte reads as after it, and that the canonical form is kept. -/

namespace Sys2Proof.Machine

theorem Memory.read_append (m m' : Memory) (a : Nat) :
    Memory.read (m ++ m') a = (Memory.read m a).or (Memory.read m' a) := by
  induction m with
  | nil => simp [Memory.read]
  | cons c m ih =>
    simp only [List.cons_append, Memory.read]
    split <;> simp [ih]

theorem Memory.read_filter (m : Memory) (q : Nat → Bool) (a : Nat) :
    Memory.read (m.filter fun c => q c.1) a = if q a then Memory.read m a else none := by
  induction m with
  | nil => simp [Memory.read]
  | cons c m ih =>
    by_cases hq : q c.1
    · rw [List.filter_cons_of_pos (by simpa using hq)]
      simp only [Memory.read, ih]
      by_cases h : a = c.1
      · simp [h, hq]
      · simp [h]
    · rw [List.filter_cons_of_neg (by simpa using hq), ih]
      by_cases h : a = c.1
      · simp [h, hq]
      · simp [Memory.read, h]

theorem Memory.read_cellsFrom (bs : List Byte) (a x : Nat) :
    Memory.read (cellsFrom a bs) x = if a ≤ x then bs[x - a]? else none := by
  induction bs generalizing a with
  | nil => simp [cellsFrom, Memory.read]
  | cons b bs ih =>
    simp only [cellsFrom, Memory.read, ih]
    by_cases h : x = a
    · simp [h]
    · by_cases h2 : a ≤ x
      · obtain ⟨k, rfl⟩ : ∃ k, x = a + 1 + k := ⟨x - (a + 1), by omega⟩
        rw [if_neg h, if_pos (by omega), if_pos h2, show a + 1 + k - (a + 1) = k by omega,
          show a + 1 + k - a = k + 1 by omega]
        simp
      · rw [if_neg h, if_neg (by omega), if_neg h2]

/-- What a byte reads as after a write of bytes (spec/00_scope.md section 4, `BufWrite`). -/
theorem Memory.read_writeBytes (m : Memory) (a : Nat) (bs : List Byte) (x : Nat) :
    Memory.read (Memory.writeBytes m a bs) x =
      if a ≤ x ∧ x < a + bs.length then bs[x - a]? else Memory.read m x := by
  unfold Memory.writeBytes
  rw [Memory.read_append, Memory.read_append, Memory.read_cellsFrom,
    Memory.read_filter m (fun y => decide (y < a)), Memory.read_filter m (fun y => decide (a + bs.length ≤ y))]
  by_cases h1 : a ≤ x
  · by_cases h2 : x < a + bs.length
    · have h3 : x - a < bs.length := by omega
      simp [h1, h2, Nat.not_lt.mpr h1, List.getElem?_eq_getElem h3]
    · have h3 : bs.length ≤ x - a := by omega
      simp [h1, h2, Nat.not_lt.mpr h1, List.getElem?_eq_none h3, Nat.not_lt.mp h2]
  · simp [h1, Nat.lt_of_not_le h1, show ¬ a + bs.length ≤ x by omega]

/-- What a byte reads as after a range became unspecified (R293). -/
theorem Memory.read_unspecify (m : Memory) (a n x : Nat) :
    Memory.read (Memory.unspecify m a n) x = if a ≤ x ∧ x < a + n then none else Memory.read m x := by
  unfold Memory.unspecify
  rw [Memory.read_filter m (fun y => !(decide (a ≤ y) && decide (y < a + n)))]
  by_cases h1 : a ≤ x <;> by_cases h2 : x < a + n <;> simp [h1, h2]

theorem cellsFrom_bounds (bs : List Byte) (a : Nat) :
    ∀ c ∈ cellsFrom a bs, a ≤ c.1 ∧ c.1 < a + bs.length := by
  induction bs generalizing a with
  | nil => simp [cellsFrom]
  | cons b bs ih =>
    intro c hc
    rcases List.mem_cons.mp hc with rfl | hc
    · simp
    · have := ih (a + 1) c hc
      simp only [List.length_cons]
      omega

theorem cellsFrom_rising (bs : List Byte) (a : Nat) :
    (cellsFrom a bs).Pairwise fun c d => c.1 < d.1 := by
  induction bs generalizing a with
  | nil => simp [cellsFrom]
  | cons b bs ih =>
    refine List.pairwise_cons.mpr ⟨fun d hd => ?_, ih (a + 1)⟩
    have := cellsFrom_bounds bs (a + 1) d hd
    omega

/-- The memory of `State.reset` has the canonical form. -/
theorem Memory.wf_nil : Memory.wf [] := ⟨List.Pairwise.nil, fun _ h => nomatch h⟩

theorem Memory.wf_filter {m : Memory} (h : m.wf) (q : Host.Cell → Bool) : Memory.wf (m.filter q) :=
  ⟨h.1.filter q, fun c hc => h.2 c (List.mem_of_mem_filter hc)⟩

/-- Making a range unspecified keeps the canonical form. -/
theorem Memory.wf_unspecify {m : Memory} (h : m.wf) (a n : Nat) : (Memory.unspecify m a n).wf :=
  Memory.wf_filter h _

/-- A write of bytes that end by byte 4095 keeps the canonical form. -/
theorem Memory.wf_writeBytes {m : Memory} (h : m.wf) (a : Nat) (bs : List Byte)
    (hb : a + bs.length ≤ Config.bufBytes) : (Memory.writeBytes m a bs).wf := by
  have lo : ∀ c ∈ m.filter (fun c => decide (c.1 < a)), c.1 < a := by
    intro c hc
    simpa using (List.mem_filter.mp hc).2
  have hi : ∀ c ∈ m.filter (fun c => decide (a + bs.length ≤ c.1)), a + bs.length ≤ c.1 := by
    intro c hc
    simpa using (List.mem_filter.mp hc).2
  have mid := cellsFrom_bounds bs a
  refine ⟨List.pairwise_append.mpr ⟨List.pairwise_append.mpr ⟨h.1.filter _, cellsFrom_rising bs a, ?_⟩,
    h.1.filter _, ?_⟩, ?_⟩
  · intro c hc d hd
    have := lo c hc
    have := mid d hd
    omega
  · intro c hc d hd
    have := hi d hd
    rcases List.mem_append.mp hc with hc | hc
    · have := lo c hc
      omega
    · have := mid c hc
      omega
  · intro c hc
    rcases List.mem_append.mp hc with hc | hc
    · rcases List.mem_append.mp hc with hc | hc
      · exact h.2 c (List.mem_of_mem_filter hc)
      · have := mid c hc
        omega
    · exact h.2 c (List.mem_of_mem_filter hc)

/-- A read of bytes answers exactly when every byte of the range has a value, and then answers those values. -/
theorem Memory.readBytes_eq_some {m : Memory} {a n : Nat} {bs : List Byte} :
    Memory.readBytes m a n = some bs ↔ bs.length = n ∧ ∀ j < n, Memory.read m (a + j) = bs[j]? := by
  induction n generalizing a bs with
  | zero => simp [Memory.readBytes, eq_comm (a := ([] : List Byte))]
  | succ n ih =>
    constructor
    · intro h
      simp only [Memory.readBytes] at h
      split at h
      · rename_i b bs' hb hbs
        cases h
        obtain ⟨hl, hr⟩ := ih.mp hbs
        refine ⟨by simp [hl], fun j hj => ?_⟩
        cases j with
        | zero => simpa using hb
        | succ j =>
          have := hr j (by omega)
          rw [show a + (j + 1) = a + 1 + j by omega, this]
          simp
      · cases h
    · rintro ⟨hl, hr⟩
      cases bs with
      | nil => simp at hl
      | cons b bs =>
        have h0 := hr 0 (by omega)
        have hs : Memory.readBytes m (a + 1) n = some bs := ih.mpr ⟨by simpa using hl, fun j hj => by
          have := hr (j + 1) (by omega)
          rw [show a + 1 + j = a + (j + 1) by omega, this]
          simp⟩
        simp only [Nat.add_zero, List.getElem?_cons_zero] at h0
        simp [Memory.readBytes, h0, hs]

/-- What a byte reads as after images were written one after another (R231). -/
theorem read_writeImages (m : Memory) (a : Nat) (ims : List (List Byte)) (x : Nat) :
    Memory.read (writeImages m a ims) x =
      if a ≤ x ∧ x < a + ims.flatten.length then ims.flatten[x - a]? else Memory.read m x := by
  induction ims generalizing m a with
  | nil => simp [writeImages]
  | cons b bs ih =>
    rw [writeImages, ih, Memory.read_writeBytes]
    simp only [List.flatten_cons, List.length_append]
    by_cases h1 : a + b.length ≤ x
    · by_cases h2 : x < a + b.length + bs.flatten.length
      · rw [if_pos ⟨h1, h2⟩, if_pos (by omega), List.getElem?_append_right (by omega)]
        congr 1
        omega
      · rw [if_neg (by omega), if_neg (by omega), if_neg (by omega)]
    · by_cases h2 : a ≤ x
      · rw [if_neg (by omega), if_pos (by omega), if_pos (by omega), List.getElem?_append_left (by omega)]
      · rw [if_neg (by omega), if_neg (by omega), if_neg (by omega)]

/-- Writing images that end by byte 4095 keeps the canonical form. -/
theorem wf_writeImages {m : Memory} (h : m.wf) (a : Nat) (ims : List (List Byte))
    (hb : a + ims.flatten.length ≤ Config.bufBytes) : (writeImages m a ims).wf := by
  induction ims generalizing m a with
  | nil => exact h
  | cons b bs ih =>
    simp only [List.flatten_cons, List.length_append] at hb
    exact ih (Memory.wf_writeBytes h a b (by omega)) _ (by omega)

end Sys2Proof.Machine
end

