-- ==== Sys2Proof/Laws/Poly.lean ====
section
/-! SUPPORT. Vectors, polynomials and the lists behind them: what each helper gives at an index, and that every list of
coefficients a command makes has exactly 256 entries. -/

namespace Sys2Proof.Machine

section Vectors
variable {α β γ : Type} {n : Nat}

theorem mapVec_eq_map (f : α → β) (v : Vector α n) : mapVec f v = v.map f := by
  apply Vector.toList_inj.mp
  simp [mapVec, Vector.toList]

@[simp] theorem toList_mapVec (f : α → β) (v : Vector α n) : (mapVec f v).toList = v.toList.map f := rfl

@[simp] theorem getElem_mapVec (f : α → β) (v : Vector α n) (i : Nat) (h : i < n) :
    (mapVec f v)[i] = f v[i] := by
  simp [mapVec_eq_map]

theorem zipVec_eq_zipWith (f : α → β → γ) (v : Vector α n) (w : Vector β n) :
    zipVec f v w = Vector.zipWith f v w := by
  apply Vector.toList_inj.mp
  simp [zipVec, Vector.toList]

@[simp] theorem getElem_zipVec (f : α → β → γ) (v : Vector α n) (w : Vector β n) (i : Nat) (h : i < n) :
    (zipVec f v w)[i] = f v[i] w[i] := by
  simp [zipVec_eq_zipWith]

theorem allSome_eq_some {l : List (Option α)} {as : List α} : allSome l = some as ↔ l = as.map some := by
  induction l generalizing as with
  | nil => cases as <;> simp [allSome]
  | cons x l ih =>
    cases x with
    | none => cases as <;> simp [allSome]
    | some a =>
      cases as with
      | nil => simp [allSome]
      | cons b bs =>
        simp only [allSome, Option.map_eq_some_iff, List.map_cons, List.cons.injEq, Option.some.injEq]
        constructor
        · rintro ⟨as', h, rfl, rfl⟩
          exact ⟨rfl, ih.mp h⟩
        · rintro ⟨rfl, h⟩
          exact ⟨bs, ih.mpr h, rfl, rfl⟩

end Vectors

theorem toList_ofList {l : List Coef} (h : l.length = 256) : (Poly.ofList l).toList = l :=
  List.takeD_eq_take 0 (Nat.le_of_eq h.symm) |>.trans (List.take_of_length_le (Nat.le_of_eq h))

theorem ofList_toList (p : Poly) : Poly.ofList p.toList = p :=
  Vector.toList_inj.mp (toList_ofList (by simp))

/-- A coefficient of a polynomial made from a list of 256 coefficients. -/
theorem getElem?_ofList {l : List Coef} (h : l.length = 256) (i : Nat) : (Poly.ofList l)[i]? = l[i]? := by
  rw [← Vector.getElem?_toList, toList_ofList h]

/-! ## A slot and the polynomial in it -/

theorem SlotData.toPoly_ofPoly (p : Poly) : (SlotData.ofPoly p).toPoly = some p := by
  have h : allSome (SlotData.ofPoly p).toList = some p.toList :=
    allSome_eq_some.mpr (toList_mapVec some p)
  simp [SlotData.toPoly, h, ofList_toList]

/-- A slot holds a polynomial exactly when each of its coefficients is specified. -/
theorem SlotData.toPoly_eq_some {d : SlotData} {p : Poly} : d.toPoly = some p ↔ d = SlotData.ofPoly p := by
  constructor
  · intro h
    obtain ⟨l, hl, rfl⟩ := Option.map_eq_some_iff.mp h
    have hd := allSome_eq_some.mp hl
    have hlen : l.length = 256 := by
      have := congrArg List.length hd
      simpa using this.symm
    apply Vector.toList_inj.mp
    rw [SlotData.ofPoly, toList_mapVec, toList_ofList hlen, hd]
  · rintro rfl
    exact SlotData.toPoly_ofPoly p

/-! ## Lengths of the lists commands compute with -/

theorem nttBlocks_length (len : Nat) (zs r : List Coef) (h : r.length = 2 * len * zs.length) :
    (nttBlocks len zs r).length = r.length := by
  induction zs generalizing r with
  | nil => simpa [nttBlocks] using h.symm
  | cons z zs ih =>
    simp only [List.length_cons, Nat.mul_add, Nat.mul_one] at h
    have := ih (r.drop (2 * len)) (by rw [List.length_drop]; omega)
    simp only [nttBlocks, List.length_append, List.length_zipWith, List.length_map, List.length_take,
      List.length_drop, this]
    omega

theorem invnttBlocks_length (len : Nat) (zs r : List Coef) (h : r.length = 2 * len * zs.length) :
    (invnttBlocks len zs r).length = r.length := by
  induction zs generalizing r with
  | nil => simpa [invnttBlocks] using h.symm
  | cons z zs ih =>
    simp only [List.length_cons, Nat.mul_add, Nat.mul_one] at h
    have := ih (r.drop (2 * len)) (by rw [List.length_drop]; omega)
    simp only [invnttBlocks, List.length_append, List.length_zipWith, List.length_map, List.length_take,
      List.length_drop, this]
    omega

theorem basemulPairs_length (zs as bs : List Coef) (ha : as.length = 2 * zs.length)
    (hb : bs.length = 2 * zs.length) : (basemulPairs zs as bs).length = 2 * zs.length := by
  induction zs generalizing as bs with
  | nil => simp [basemulPairs]
  | cons z zs ih =>
    match as, bs, ha, hb with
    | a0 :: a1 :: as, b0 :: b1 :: bs, ha, hb =>
      simp only [List.length_cons] at ha hb
      have := ih as bs (by omega) (by omega)
      simp only [basemulPairs, List.length_cons, this]
      omega

theorem pairZetas_length : pairZetas.length = 128 := by decide +kernel

theorem takeValues_length (d n : Nat) (bits : List Bool) : (takeValues d n bits).length = n := by
  induction n generalizing bits with
  | zero => rfl
  | succ n ih => simp [takeValues, ih]

/-- An image of width d has 32·d bytes (R66). -/
@[simp] theorem packBits_length (d : Nat) (t : Poly) : (packBits d t).length = 32 * d := by
  simp [packBits, takeValues_length]

@[simp] theorem pack12Image_length (a : Poly) : (pack12Image a).length = 384 := by simp [pack12Image]

@[simp] theorem compressImage_length (d : Nat) (a : Poly) : (compressImage d a).length = 32 * d := by
  simp [compressImage]

/-- 4·n bytes give 8·n coefficients (R180). -/
theorem cbd2Words_length (n : Nat) (b : List Byte) (h : b.length = 4 * n) :
    (cbd2Words b).length = 8 * n := by
  induction n generalizing b with
  | zero => cases List.length_eq_zero_iff.mp h; rfl
  | succ n ih =>
    match b, h with
    | b0 :: b1 :: b2 :: b3 :: bs, h =>
      simp only [List.length_cons] at h
      have := ih bs (by omega)
      simp only [cbd2Words, List.length_append, List.length_map, List.length_range, this]
      omega

end Sys2Proof.Machine
end

