-- ==== Sys2Proof/Laws/Slots.lean ====
section
/-! SUPPORT. What every operation on the slot file can do: which slots it changes and what they then hold. -/

namespace Sys2Proof.Machine

/-- A slot reads as a polynomial exactly when it is a slot and holds that polynomial. -/
theorem SlotFile.readPoly_eq_some {f : SlotFile} {r : Nat} {p : Poly} :
    SlotFile.readPoly f r = some p ↔ f[r]? = some (SlotData.ofPoly p) := by
  unfold SlotFile.readPoly
  rw [Option.bind_eq_some_iff]
  constructor
  · rintro ⟨d, hd, hp⟩
    rw [hd, SlotData.toPoly_eq_some.mp hp]
  · intro h
    exact ⟨_, h, SlotData.toPoly_ofPoly p⟩

theorem SlotFile.getElem?_writeSlot (f : SlotFile) (r : Nat) (d : SlotData) (x : Nat) :
    (SlotFile.writeSlot f r d)[x]? = if x = r ∧ r < 32 then some d else f[x]? := by
  unfold SlotFile.writeSlot
  rw [Vector.getElem?_setIfInBounds]
  by_cases h : r = x
  · subst h
    by_cases h2 : r < 32
    · simp [h2]
    · simp [h2]
  · rw [if_neg h, if_neg (by omega)]

/-- Reading consecutive slots answers exactly when each of them holds a polynomial (R21). -/
theorem readSlots_eq_some {f : SlotFile} {r n : Nat} {ps : List Poly} :
    readSlots f r n = some ps ↔ ps.length = n ∧ ∀ j < n, SlotFile.readPoly f (r + j) = ps[j]? := by
  induction n generalizing r ps with
  | zero => simp [readSlots, eq_comm (a := ([] : List Poly))]
  | succ n ih =>
    constructor
    · intro h
      simp only [readSlots] at h
      split at h
      · rename_i p ps' hp hps
        cases h
        obtain ⟨hl, hr⟩ := ih.mp hps
        refine ⟨by simp [hl], fun j hj => ?_⟩
        cases j with
        | zero => simpa using hp
        | succ j =>
          have := hr j (by omega)
          rw [show r + (j + 1) = r + 1 + j by omega, this]
          simp
      · cases h
    · rintro ⟨hl, hr⟩
      cases ps with
      | nil => simp at hl
      | cons p ps =>
        have h0 := hr 0 (by omega)
        have hs : readSlots f (r + 1) n = some ps := ih.mpr ⟨by simpa using hl, fun j hj => by
          have := hr (j + 1) (by omega)
          rw [show r + 1 + j = r + (j + 1) by omega, this]
          simp⟩
        simp only [Nat.add_zero, List.getElem?_cons_zero] at h0
        simp [readSlots, h0, hs]

/-- Reading consecutive slots whose contents are known. -/
theorem readSlots_of_reads {f : SlotFile} {r n : Nat} {a : Nat → Poly}
    (h : ∀ j < n, SlotFile.readPoly f (r + j) = some (a j)) :
    readSlots f r n = some ((List.range n).map a) := by
  refine readSlots_eq_some.mpr ⟨by simp, fun j hj => ?_⟩
  rw [h j hj]
  simp [hj]

/-- What every slot holds after polynomials were written to consecutive slots (R230). -/
theorem getElem?_writeSlots (f : SlotFile) (r : Nat) (ps : List Poly) (x : Nat) :
    (writeSlots f r ps)[x]? =
      if r ≤ x ∧ x < r + ps.length ∧ x < 32 then (ps[x - r]?).map SlotData.ofPoly else f[x]? := by
  induction ps generalizing f r with
  | nil => rw [writeSlots, if_neg (by simp; omega)]
  | cons p ps ih =>
    rw [writeSlots, ih, SlotFile.getElem?_writeSlot, List.length_cons]
    by_cases h1 : r + 1 ≤ x
    · obtain ⟨k, rfl⟩ : ∃ k, x = r + 1 + k := ⟨x - (r + 1), by omega⟩
      rw [show r + 1 + k - r = k + 1 by omega, show r + 1 + k - (r + 1) = k by omega, List.getElem?_cons_succ,
        if_neg (show ¬(r + 1 + k = r ∧ r < 32) by omega)]
      by_cases h2 : k < ps.length ∧ r + 1 + k < 32
      · rw [if_pos (by omega), if_pos (by omega)]
      · rw [if_neg (by omega), if_neg (by omega)]
    · rw [if_neg (by omega)]
      by_cases h2 : x = r
      · subst h2
        by_cases h3 : x < 32
        · simp [h3]
        · simp [h3]
      · rw [if_neg (by omega), if_neg (by omega)]

/-- A slot written by `writeSlots` reads as the polynomial written to it. -/
theorem readPoly_writeSlots {f : SlotFile} {r : Nat} {ps : List Poly} {j : Nat} (hj : j < ps.length)
    (hr : r + ps.length ≤ 32) : SlotFile.readPoly (writeSlots f r ps) (r + j) = some ps[j] := by
  rw [SlotFile.readPoly_eq_some, getElem?_writeSlots, if_pos (by omega), Nat.add_sub_cancel_left,
    List.getElem?_eq_getElem hj]
  rfl

/-- What every slot holds after consecutive slots became unspecified (R293). -/
theorem SlotFile.getElem?_unspecify (f : SlotFile) (r n x : Nat) :
    (SlotFile.unspecify f r n)[x]? =
      if r ≤ x ∧ x < r + n ∧ x < 32 then some SlotData.unspecified else f[x]? := by
  induction n generalizing f r with
  | zero => rw [SlotFile.unspecify, if_neg (by omega)]
  | succ n ih =>
    rw [SlotFile.unspecify, ih, SlotFile.getElem?_writeSlot]
    by_cases h1 : r + 1 ≤ x ∧ x < r + 1 + n ∧ x < 32
    · rw [if_pos h1, if_pos (by omega)]
    · rw [if_neg h1]
      by_cases h2 : x = r ∧ r < 32
      · rw [if_pos h2, if_pos (by omega)]
      · rw [if_neg h2, if_neg (by omega)]

/-- The other slots after one coefficient was written (R64). -/
theorem SlotFile.getElem?_writeCoef_ne (f : SlotFile) (r i : Nat) (c : Coef) {x : Nat} (h : x ≠ r) :
    (SlotFile.writeCoef f r i c)[x]? = f[x]? := by
  unfold SlotFile.writeCoef
  split
  · rw [SlotFile.getElem?_writeSlot, if_neg (by omega)]
  · rfl

/-- What every coefficient reads as after one was written (R64). -/
theorem SlotFile.readCoef_writeCoef (f : SlotFile) (r i : Nat) (c : Coef) (hr : r < 32) (hi : i < 256) (x y : Nat) :
    SlotFile.readCoef (SlotFile.writeCoef f r i c) x y =
      if x = r ∧ y = i then some c else SlotFile.readCoef f x y := by
  by_cases hx : x = r
  · subst hx
    have hf : f[x]? = some f[x] := Vector.getElem?_eq_getElem hr
    unfold SlotFile.readCoef SlotFile.writeCoef
    simp only [hf, SlotFile.getElem?_writeSlot, hr, and_self, if_true, Option.bind_some, true_and]
    rw [Vector.getElem?_setIfInBounds]
    by_cases hy : i = y
    · subst hy
      simp [hi]
    · rw [if_neg hy, if_neg (fun h => hy h.symm)]
  · rw [if_neg (fun h => hx h.1)]
    unfold SlotFile.readCoef
    rw [SlotFile.getElem?_writeCoef_ne f r i c hx]

end Sys2Proof.Machine
end

