-- ==== Sys2Proof/Laws/State.lean ====
section
/-! SUPPORT. What each named update of the state leaves in each field: one lemma a field, true by unfolding the update, so
that no later proof unfolds one. -/

namespace Sys2Proof.Machine

variable (s : State)

/-! ## The end of a completion step (R301) -/

@[simp] theorem complete_build : (complete s).build = s.build := rfl
@[simp] theorem complete_slots : (complete s).slots = s.slots := rfl
@[simp] theorem complete_buf : (complete s).buf = s.buf := rfl
@[simp] theorem complete_sa : (complete s).sa = s.sa := rfl
@[simp] theorem complete_sb : (complete s).sb = s.sb := rfl
@[simp] theorem complete_sr : (complete s).sr = s.sr := rfl
@[simp] theorem complete_ieDone : (complete s).ieDone = s.ieDone := rfl
@[simp] theorem complete_ieErr : (complete s).ieErr = s.ieErr := rfl
@[simp] theorem complete_done : (complete s).done = true := rfl
@[simp] theorem complete_err : (complete s).err = s.err := rfl
@[simp] theorem complete_errCode : (complete s).errCode = s.errCode := rfl
@[simp] theorem complete_errInfo : (complete s).errInfo = s.errInfo := rfl
@[simp] theorem complete_cmd : (complete s).cmd = s.cmd := rfl
@[simp] theorem complete_cmdCount : (complete s).cmdCount = s.cmdCount + 1 := rfl
@[simp] theorem complete_inFlight : (complete s).inFlight = none := rfl
@[simp] theorem complete_events : (complete s).events = s.events := rfl
@[simp] theorem complete_readData : (complete s).readData = s.readData := rfl

/-! ## Acceptance of a command (R300) -/

@[simp] theorem accept_build (w : Word) : (accept w s).build = s.build := rfl
@[simp] theorem accept_slots (w : Word) : (accept w s).slots = s.slots := rfl
@[simp] theorem accept_buf (w : Word) : (accept w s).buf = s.buf := rfl
@[simp] theorem accept_sa (w : Word) : (accept w s).sa = s.sa := rfl
@[simp] theorem accept_sb (w : Word) : (accept w s).sb = s.sb := rfl
@[simp] theorem accept_sr (w : Word) : (accept w s).sr = s.sr := rfl
@[simp] theorem accept_ieDone (w : Word) : (accept w s).ieDone = s.ieDone := rfl
@[simp] theorem accept_ieErr (w : Word) : (accept w s).ieErr = s.ieErr := rfl
@[simp] theorem accept_done (w : Word) : (accept w s).done = s.done := rfl
@[simp] theorem accept_err (w : Word) : (accept w s).err = s.err := rfl
@[simp] theorem accept_errCode (w : Word) : (accept w s).errCode = s.errCode := rfl
@[simp] theorem accept_errInfo (w : Word) : (accept w s).errInfo = s.errInfo := rfl
@[simp] theorem accept_cmd (w : Word) : (accept w s).cmd = s.cmd := rfl
@[simp] theorem accept_cmdCount (w : Word) : (accept w s).cmdCount = s.cmdCount := rfl
@[simp] theorem accept_inFlight (w : Word) : (accept w s).inFlight = some w := rfl
@[simp] theorem accept_events (w : Word) : (accept w s).events = s.events := rfl
@[simp] theorem accept_readData (w : Word) : (accept w s).readData = s.readData := rfl

/-! ## The host's clearing of an error (R254) -/

@[simp] theorem clearError_build : (clearError s).build = s.build := rfl
@[simp] theorem clearError_slots : (clearError s).slots = s.slots := rfl
@[simp] theorem clearError_buf : (clearError s).buf = s.buf := rfl
@[simp] theorem clearError_sa : (clearError s).sa = s.sa := rfl
@[simp] theorem clearError_sb : (clearError s).sb = s.sb := rfl
@[simp] theorem clearError_sr : (clearError s).sr = s.sr := rfl
@[simp] theorem clearError_ieDone : (clearError s).ieDone = s.ieDone := rfl
@[simp] theorem clearError_ieErr : (clearError s).ieErr = s.ieErr := rfl
@[simp] theorem clearError_done : (clearError s).done = s.done := rfl
@[simp] theorem clearError_err : (clearError s).err = false := rfl
@[simp] theorem clearError_errCode : (clearError s).errCode = 0 := rfl
@[simp] theorem clearError_errInfo : (clearError s).errInfo = 0 := rfl
@[simp] theorem clearError_cmd : (clearError s).cmd = s.cmd := rfl
@[simp] theorem clearError_cmdCount : (clearError s).cmdCount = s.cmdCount := rfl
@[simp] theorem clearError_inFlight : (clearError s).inFlight = s.inFlight := rfl
@[simp] theorem clearError_events : (clearError s).events = s.events := rfl
@[simp] theorem clearError_readData : (clearError s).readData = s.readData := rfl

/-! ## The value a host read returns -/

@[simp] theorem respond_build (v : Word) : (respond v s).build = s.build := rfl
@[simp] theorem respond_slots (v : Word) : (respond v s).slots = s.slots := rfl
@[simp] theorem respond_buf (v : Word) : (respond v s).buf = s.buf := rfl
@[simp] theorem respond_sa (v : Word) : (respond v s).sa = s.sa := rfl
@[simp] theorem respond_sb (v : Word) : (respond v s).sb = s.sb := rfl
@[simp] theorem respond_sr (v : Word) : (respond v s).sr = s.sr := rfl
@[simp] theorem respond_ieDone (v : Word) : (respond v s).ieDone = s.ieDone := rfl
@[simp] theorem respond_ieErr (v : Word) : (respond v s).ieErr = s.ieErr := rfl
@[simp] theorem respond_done (v : Word) : (respond v s).done = s.done := rfl
@[simp] theorem respond_err (v : Word) : (respond v s).err = s.err := rfl
@[simp] theorem respond_errCode (v : Word) : (respond v s).errCode = s.errCode := rfl
@[simp] theorem respond_errInfo (v : Word) : (respond v s).errInfo = s.errInfo := rfl
@[simp] theorem respond_cmd (v : Word) : (respond v s).cmd = s.cmd := rfl
@[simp] theorem respond_cmdCount (v : Word) : (respond v s).cmdCount = s.cmdCount := rfl
@[simp] theorem respond_inFlight (v : Word) : (respond v s).inFlight = s.inFlight := rfl
@[simp] theorem respond_events (v : Word) : (respond v s).events = s.events := rfl
@[simp] theorem respond_readData (v : Word) : (respond v s).readData = some v := rfl

/-! ## Recording an error (R253) -/

@[simp] theorem raiseError_build (e : CmdError) (w : Word) :
    (raiseError e w s).build = s.build := by
  unfold raiseError
  split <;> simp_all
@[simp] theorem raiseError_slots (e : CmdError) (w : Word) :
    (raiseError e w s).slots = s.slots := by
  unfold raiseError
  split <;> simp_all
@[simp] theorem raiseError_buf (e : CmdError) (w : Word) :
    (raiseError e w s).buf = s.buf := by
  unfold raiseError
  split <;> simp_all
@[simp] theorem raiseError_sa (e : CmdError) (w : Word) :
    (raiseError e w s).sa = s.sa := by
  unfold raiseError
  split <;> simp_all
@[simp] theorem raiseError_sb (e : CmdError) (w : Word) :
    (raiseError e w s).sb = s.sb := by
  unfold raiseError
  split <;> simp_all
@[simp] theorem raiseError_sr (e : CmdError) (w : Word) :
    (raiseError e w s).sr = s.sr := by
  unfold raiseError
  split <;> simp_all
@[simp] theorem raiseError_ieDone (e : CmdError) (w : Word) :
    (raiseError e w s).ieDone = s.ieDone := by
  unfold raiseError
  split <;> simp_all
@[simp] theorem raiseError_ieErr (e : CmdError) (w : Word) :
    (raiseError e w s).ieErr = s.ieErr := by
  unfold raiseError
  split <;> simp_all
@[simp] theorem raiseError_done (e : CmdError) (w : Word) :
    (raiseError e w s).done = s.done := by
  unfold raiseError
  split <;> simp_all
@[simp] theorem raiseError_err (e : CmdError) (w : Word) :
    (raiseError e w s).err = true := by
  unfold raiseError
  split <;> simp_all
@[simp] theorem raiseError_errCode (e : CmdError) (w : Word) :
    (raiseError e w s).errCode = if s.err then s.errCode else errorCode e := by
  unfold raiseError
  split <;> simp_all
@[simp] theorem raiseError_errInfo (e : CmdError) (w : Word) :
    (raiseError e w s).errInfo = if s.err then s.errInfo else w := by
  unfold raiseError
  split <;> simp_all
@[simp] theorem raiseError_cmd (e : CmdError) (w : Word) :
    (raiseError e w s).cmd = s.cmd := by
  unfold raiseError
  split <;> simp_all
@[simp] theorem raiseError_cmdCount (e : CmdError) (w : Word) :
    (raiseError e w s).cmdCount = s.cmdCount := by
  unfold raiseError
  split <;> simp_all
@[simp] theorem raiseError_inFlight (e : CmdError) (w : Word) :
    (raiseError e w s).inFlight = s.inFlight := by
  unfold raiseError
  split <;> simp_all
@[simp] theorem raiseError_events (e : CmdError) (w : Word) :
    (raiseError e w s).events = s.events := by
  unfold raiseError
  split <;> simp_all
@[simp] theorem raiseError_readData (e : CmdError) (w : Word) :
    (raiseError e w s).readData = s.readData := by
  unfold raiseError
  split <;> simp_all

/-! ## A power-on reset (R290) -/

@[simp] theorem powerOnReset_build : (powerOnReset s).build = s.build := rfl
@[simp] theorem powerOnReset_slots : (powerOnReset s).slots = Vector.replicate 32 SlotData.unspecified := rfl
@[simp] theorem powerOnReset_buf : (powerOnReset s).buf = [] := rfl
@[simp] theorem powerOnReset_sa : (powerOnReset s).sa = 0 := rfl
@[simp] theorem powerOnReset_sb : (powerOnReset s).sb = 0 := rfl
@[simp] theorem powerOnReset_sr : (powerOnReset s).sr = 0 := rfl
@[simp] theorem powerOnReset_ieDone : (powerOnReset s).ieDone = false := rfl
@[simp] theorem powerOnReset_ieErr : (powerOnReset s).ieErr = false := rfl
@[simp] theorem powerOnReset_done : (powerOnReset s).done = false := rfl
@[simp] theorem powerOnReset_err : (powerOnReset s).err = false := rfl
@[simp] theorem powerOnReset_errCode : (powerOnReset s).errCode = 0 := rfl
@[simp] theorem powerOnReset_errInfo : (powerOnReset s).errInfo = 0 := rfl
@[simp] theorem powerOnReset_cmd : (powerOnReset s).cmd = 0 := rfl
@[simp] theorem powerOnReset_cmdCount : (powerOnReset s).cmdCount = 0 := rfl
@[simp] theorem powerOnReset_inFlight : (powerOnReset s).inFlight = none := rfl
@[simp] theorem powerOnReset_events : (powerOnReset s).events = s.events := rfl
@[simp] theorem powerOnReset_readData : (powerOnReset s).readData = none := rfl

/-! ## Losing slots (R293) -/

@[simp] theorem loseSlots_build (r : SlotNo) (n : Nat) : (loseSlots r n s).build = s.build := rfl
@[simp] theorem loseSlots_slots (r : SlotNo) (n : Nat) :
    (loseSlots r n s).slots = SlotFile.unspecify s.slots r.toNat n := rfl
@[simp] theorem loseSlots_buf (r : SlotNo) (n : Nat) : (loseSlots r n s).buf = s.buf := rfl
@[simp] theorem loseSlots_sa (r : SlotNo) (n : Nat) : (loseSlots r n s).sa = s.sa := rfl
@[simp] theorem loseSlots_sb (r : SlotNo) (n : Nat) : (loseSlots r n s).sb = s.sb := rfl
@[simp] theorem loseSlots_sr (r : SlotNo) (n : Nat) : (loseSlots r n s).sr = s.sr := rfl
@[simp] theorem loseSlots_ieDone (r : SlotNo) (n : Nat) : (loseSlots r n s).ieDone = s.ieDone := rfl
@[simp] theorem loseSlots_ieErr (r : SlotNo) (n : Nat) : (loseSlots r n s).ieErr = s.ieErr := rfl
@[simp] theorem loseSlots_done (r : SlotNo) (n : Nat) : (loseSlots r n s).done = s.done := rfl
@[simp] theorem loseSlots_err (r : SlotNo) (n : Nat) : (loseSlots r n s).err = s.err := rfl
@[simp] theorem loseSlots_errCode (r : SlotNo) (n : Nat) : (loseSlots r n s).errCode = s.errCode := rfl
@[simp] theorem loseSlots_errInfo (r : SlotNo) (n : Nat) : (loseSlots r n s).errInfo = s.errInfo := rfl
@[simp] theorem loseSlots_cmd (r : SlotNo) (n : Nat) : (loseSlots r n s).cmd = s.cmd := rfl
@[simp] theorem loseSlots_cmdCount (r : SlotNo) (n : Nat) : (loseSlots r n s).cmdCount = s.cmdCount := rfl
@[simp] theorem loseSlots_inFlight (r : SlotNo) (n : Nat) : (loseSlots r n s).inFlight = s.inFlight := rfl
@[simp] theorem loseSlots_events (r : SlotNo) (n : Nat) : (loseSlots r n s).events = s.events := rfl
@[simp] theorem loseSlots_readData (r : SlotNo) (n : Nat) : (loseSlots r n s).readData = s.readData := rfl

/-! ## Placing a command word -/

@[simp] theorem withFetchWord_build (n w : Nat) : (State.withFetchWord s n w).build = s.build := rfl
@[simp] theorem withFetchWord_slots (n w : Nat) : (State.withFetchWord s n w).slots = s.slots := rfl
@[simp] theorem withFetchWord_buf (n w : Nat) : (State.withFetchWord s n w).buf = s.buf := rfl
@[simp] theorem withFetchWord_sa (n w : Nat) : (State.withFetchWord s n w).sa = s.sa := rfl
@[simp] theorem withFetchWord_sb (n w : Nat) : (State.withFetchWord s n w).sb = s.sb := rfl
@[simp] theorem withFetchWord_sr (n w : Nat) : (State.withFetchWord s n w).sr = s.sr := rfl
@[simp] theorem withFetchWord_ieDone (n w : Nat) : (State.withFetchWord s n w).ieDone = s.ieDone := rfl
@[simp] theorem withFetchWord_ieErr (n w : Nat) : (State.withFetchWord s n w).ieErr = s.ieErr := rfl
@[simp] theorem withFetchWord_done (n w : Nat) : (State.withFetchWord s n w).done = s.done := rfl
@[simp] theorem withFetchWord_err (n w : Nat) : (State.withFetchWord s n w).err = s.err := rfl
@[simp] theorem withFetchWord_errCode (n w : Nat) : (State.withFetchWord s n w).errCode = s.errCode := rfl
@[simp] theorem withFetchWord_errInfo (n w : Nat) : (State.withFetchWord s n w).errInfo = s.errInfo := rfl
@[simp] theorem withFetchWord_cmd (n w : Nat) : (State.withFetchWord s n w).cmd = tableWord n w := rfl
@[simp] theorem withFetchWord_cmdCount (n w : Nat) : (State.withFetchWord s n w).cmdCount = s.cmdCount := rfl
@[simp] theorem withFetchWord_inFlight (n w : Nat) :
    (State.withFetchWord s n w).inFlight = some (tableWord n w) := rfl
@[simp] theorem withFetchWord_events (n w : Nat) : (State.withFetchWord s n w).events = .complete :: s.events := rfl
@[simp] theorem withFetchWord_readData (n w : Nat) : (State.withFetchWord s n w).readData = s.readData := rfl

/-- A completion step ends with the engine idle. -/
@[simp] theorem complete_busy : (complete s).busy = false := rfl

/-- Acceptance leaves the engine busy. -/
@[simp] theorem accept_busy (w : Word) : (accept w s).busy = true := rfl

@[simp] theorem raiseError_busy (e : CmdError) (w : Word) : (raiseError e w s).busy = s.busy := by
  simp [State.busy]

end Sys2Proof.Machine
end

