-- ==== Sys2Proof/Laws/Ops.lean ====
section
/-! SUPPORT. What each shared operation can answer, once: the completion step `run`, the operand forms, `exec` and the
resets. -/

namespace Sys2Proof.Machine

/-! ## The completion step -/

/-- A completion step answers a next state exactly when the command is legal and its effect has all its sources. -/
theorem run_eq_next {i : Instr} {e : State → Option State} {s t : State} :
    run i e s = .next t ↔ i.wellFormed s.build.k = true ∧ ∃ u, e s = some u ∧ t = complete u := by
  unfold run
  by_cases hw : i.wellFormed s.build.k = true
  · cases he : e s <;> simp [hw, eq_comm]
  · simp [hw]

/-- A completion step faults exactly when the command is legal and a source is unspecified (R21). -/
theorem run_eq_fault {i : Instr} {e : State → Option State} {s : State} {r : Fault} :
    run i e s = .fault r ↔ i.wellFormed s.build.k = true ∧ e s = none ∧ r = .readUnspecified := by
  unfold run
  by_cases hw : i.wellFormed s.build.k = true
  · cases he : e s <;> simp [hw, eq_comm]
  · simp [hw]

/-- A completion step is refused exactly when no CMD write can have accepted the command (R88). -/
theorem run_eq_refused {i : Instr} {e : State → Option State} {s : State} {r : Refusal} :
    run i e s = .refused r ↔ i.wellFormed s.build.k = false ∧ r = .illegalCommand := by
  unfold run
  by_cases hw : i.wellFormed s.build.k = true
  · cases he : e s <;> simp [hw]
  · simp [hw, eq_comm]

/-! ## The operand forms -/

theorem slotOp1_eq_some {f : Poly → Poly} {v : Bool} {rd rs1 : SlotNo} {s u : State} :
    slotOp1 f v rd rs1 s = some u ↔ ∃ as, readSlots s.slots rs1.toNat (s.count v) = some as ∧
      u = { s with slots := writeSlots s.slots rd.toNat (as.map f) } := by
  unfold slotOp1
  split
  · rename_i xs h
    exact ⟨fun e => by cases e; exact ⟨xs, h, rfl⟩, fun ⟨_, h', e⟩ => by cases h.symm.trans h'; rw [e]⟩
  · rename_i h
    simp [h]

theorem slotOp2_eq_some {f : Poly → Poly → Poly} {v : Bool} {rd rs1 rs2 : SlotNo} {s u : State} :
    slotOp2 f v rd rs1 rs2 s = some u ↔ ∃ as bs, readSlots s.slots rs1.toNat (s.count v) = some as ∧
      readSlots s.slots rs2.toNat (s.count v) = some bs ∧
      u = { s with slots := writeSlots s.slots rd.toNat (List.zipWith f as bs) } := by
  unfold slotOp2
  split
  · rename_i as bs ha hb
    exact ⟨fun e => by cases e; exact ⟨as, bs, ha, hb, rfl⟩,
      fun ⟨_, _, ha', hb', e⟩ => by cases ha.symm.trans ha'; cases hb.symm.trans hb'; rw [e]⟩
  · rename_i h
    simp only [reduceCtorEq, false_iff]
    rintro ⟨as, bs, ha, hb, -⟩
    exact h as bs ha hb

theorem slotOp3_eq_some {f : Poly → Poly → Poly → Poly} {v : Bool} {rd rs1 rs2 : SlotNo} {s u : State} :
    slotOp3 f v rd rs1 rs2 s = some u ↔ ∃ cs as bs, readSlots s.slots rd.toNat (s.count v) = some cs ∧
      readSlots s.slots rs1.toNat (s.count v) = some as ∧ readSlots s.slots rs2.toNat (s.count v) = some bs ∧
      u = { s with slots := writeSlots s.slots rd.toNat (List.zipWith3 f cs as bs) } := by
  unfold slotOp3
  split
  · rename_i cs as bs hc ha hb
    exact ⟨fun e => by cases e; exact ⟨cs, as, bs, hc, ha, hb, rfl⟩, fun ⟨_, _, _, hc', ha', hb', e⟩ => by
      cases hc.symm.trans hc'; cases ha.symm.trans ha'; cases hb.symm.trans hb'; rw [e]⟩
  · rename_i h
    simp only [reduceCtorEq, false_iff]
    rintro ⟨cs, as, bs, hc, ha, hb, -⟩
    exact h cs as bs hc ha hb

theorem slotsToBuf_eq_some {f : Poly → List Byte} {v : Bool} {p : SlotNo} {a : BufAddr} {s u : State} :
    slotsToBuf f v p a s = some u ↔ ∃ as, readSlots s.slots p.toNat (s.count v) = some as ∧
      u = { s with buf := writeImages s.buf a.toNat (as.map f) } := by
  unfold slotsToBuf
  split
  · rename_i xs h
    exact ⟨fun e => by cases e; exact ⟨xs, h, rfl⟩, fun ⟨_, h', e⟩ => by cases h.symm.trans h'; rw [e]⟩
  · rename_i h
    simp [h]

theorem bufToSlots_eq_some {f : List Byte → Poly} {len : Nat} {v : Bool} {p : SlotNo} {a : BufAddr} {s u : State} :
    bufToSlots f len v p a s = some u ↔ ∃ bs, readImages s.buf len a.toNat (s.count v) = some bs ∧
      u = { s with slots := writeSlots s.slots p.toNat (bs.map f) } := by
  unfold bufToSlots
  split
  · rename_i xs h
    exact ⟨fun e => by cases e; exact ⟨xs, h, rfl⟩, fun ⟨_, h', e⟩ => by cases h.symm.trans h'; rw [e]⟩
  · rename_i h
    simp [h]

theorem dotOp_eq_some {rd rs1 rs2 : SlotNo} {s u : State} :
    dotOp rd rs1 rs2 s = some u ↔ ∃ as bs, readSlots s.slots rs1.toNat s.build.k.toNat = some as ∧
      readSlots s.slots rs2.toNat s.build.k.toNat = some bs ∧
      u = { s with slots := SlotFile.writeSlot s.slots rd.toNat (SlotData.ofPoly (dotPoly as bs)) } := by
  unfold dotOp
  split
  · rename_i as bs ha hb
    exact ⟨fun e => by cases e; exact ⟨as, bs, ha, hb, rfl⟩,
      fun ⟨_, _, ha', hb', e⟩ => by cases ha.symm.trans ha'; cases hb.symm.trans hb'; rw [e]⟩
  · rename_i h
    simp only [reduceCtorEq, false_iff]
    rintro ⟨as, bs, ha, hb, -⟩
    exact h as bs ha hb

/-- Reading consecutive images answers exactly when each of them has all its bytes, and then answers them (R231). -/
theorem readImages_eq_some {m : Memory} {len a n : Nat} {bs : List (List Byte)} :
    readImages m len a n = some bs ↔
      bs.length = n ∧ ∀ j < n, ∃ b, bs[j]? = some b ∧ Memory.readBytes m (a + len * j) len = some b := by
  induction n generalizing a bs with
  | zero => simp [readImages, eq_comm (a := ([] : List (List Byte)))]
  | succ n ih =>
    constructor
    · intro h
      simp only [readImages] at h
      split at h
      · rename_i b bs' hb hbs
        cases h
        obtain ⟨hl, hr⟩ := ih.mp hbs
        refine ⟨by simp [hl], fun j hj => ?_⟩
        cases j with
        | zero => exact ⟨b, by simp, by simpa using hb⟩
        | succ j =>
          obtain ⟨c, h1, h2⟩ := hr j (by omega)
          refine ⟨c, by simpa using h1, ?_⟩
          rw [show a + len * (j + 1) = a + len + len * j by ring]
          exact h2
      · cases h
    · rintro ⟨hl, hr⟩
      cases bs with
      | nil => simp at hl
      | cons b bs =>
        obtain ⟨c, h1, h2⟩ := hr 0 (by omega)
        simp only [List.getElem?_cons_zero, Option.some.injEq] at h1
        subst h1
        have hs : readImages m len (a + len) n = some bs := ih.mpr ⟨by simpa using hl, fun j hj => by
          obtain ⟨c, h3, h4⟩ := hr (j + 1) (by omega)
          refine ⟨c, by simpa using h3, ?_⟩
          rw [show a + len + len * j = a + len * (j + 1) by ring]
          exact h4⟩
        simp only [Nat.mul_zero, Nat.add_zero] at h2
        simp [readImages, h2, hs]

/-! ## Every command -/

/-- The effect each command hands to `run`. -/
def effectOf : Instr → State → Option State
  | .nop => some
  | .montred => scalarOp fun sa _ => mont sa.toInt
  | .barred => scalarOp fun sa _ => barrett (lowHalf sa)
  | .csubq => scalarOp fun sa _ => csubq (lowHalf sa)
  | .fqmul => scalarOp fun sa sb => fqmul (lowHalf sa) (lowHalf sb)
  | .padd v rd rs1 rs2 => slotOp2 addPoly v rd rs1 rs2
  | .psub v rd rs1 rs2 => slotOp2 subPoly v rd rs1 rs2
  | .preduce v rd rs1 => slotOp1 reducePoly v rd rs1
  | .pcsubq v rd rs1 => slotOp1 csubqPoly v rd rs1
  | .tomont v rd rs1 => slotOp1 toMontPoly v rd rs1
  | .ntt v rd rs1 => slotOp1 nttF v rd rs1
  | .invntt v rd rs1 => slotOp1 invnttF v rd rs1
  | .pmul v rd rs1 rs2 => slotOp2 mulPoly v rd rs1 rs2
  | .pmac v rd rs1 rs2 => slotOp3 macPoly v rd rs1 rs2
  | .pvdot rd rs1 rs2 => dotOp rd rs1 rs2
  | .pack12 v p addr => slotsToBuf pack12Image v p addr
  | .unpack12 v p addr => bufToSlots (unpackBits 12) 384 v p addr
  | .compress v p d addr => slotsToBuf (compressImage d.toNat) v p addr
  | .decompress v p d addr => bufToSlots (decompressPoly d.toNat) (32 * d.toNat) v p addr
  | .cbd2 v p addr => bufToSlots cbd2F 128 v p addr

/-- Every command is one completion step of its own effect. -/
theorem exec_eq_run (i : Instr) (s : State) : exec i s = run i (effectOf i) s := by
  cases i <;> rfl

/-- Everything an effect can change: the slots, BUF and SR. -/
theorem effectOf_frame {i : Instr} {s u : State} (h : effectOf i s = some u) :
    u = { s with slots := u.slots, buf := u.buf, sr := u.sr } := by
  cases i <;>
    first
    | (cases h; rfl)
    | (obtain ⟨_, -, rfl⟩ := slotOp1_eq_some.mp h; rfl)
    | (obtain ⟨_, _, -, -, rfl⟩ := slotOp2_eq_some.mp h; rfl)
    | (obtain ⟨_, _, _, -, -, -, rfl⟩ := slotOp3_eq_some.mp h; rfl)
    | (obtain ⟨_, _, -, -, rfl⟩ := dotOp_eq_some.mp h; rfl)
    | (obtain ⟨_, -, rfl⟩ := slotsToBuf_eq_some.mp h; rfl)
    | (obtain ⟨_, -, rfl⟩ := bufToSlots_eq_some.mp h; rfl)

/-- A completion step answers a next state exactly when the command is legal and its effect has all its sources. -/
theorem exec_eq_next {i : Instr} {s t : State} :
    exec i s = .next t ↔ i.wellFormed s.build.k = true ∧ ∃ u, effectOf i s = some u ∧ t = complete u := by
  rw [exec_eq_run, run_eq_next]

/-- Everything a completion step can change: the slots, BUF, SR and the three fields of `complete`. -/
theorem exec_frame {i : Instr} {s t : State} (h : exec i s = .next t) :
    t = { complete s with slots := t.slots, buf := t.buf, sr := t.sr } := by
  obtain ⟨-, u, hu, rfl⟩ := exec_eq_next.mp h
  conv_lhs => rw [effectOf_frame hu]
  rfl

/-- A completion step is taken only for a command a CMD write can have accepted (R88). -/
theorem exec_next_wellFormed {i : Instr} {s t : State} (h : exec i s = .next t) :
    i.wellFormed s.build.k = true := (exec_eq_next.mp h).1

/-- The only fault of a completion step (R21). -/
theorem exec_fault {i : Instr} {s : State} {r : Fault} (h : exec i s = .fault r) : r = .readUnspecified := by
  rw [exec_eq_run] at h
  exact (run_eq_fault.mp h).2.2

/-- The length of K images of the same length (R231). -/
theorem flatten_map_length {f : Poly → List Byte} {len : Nat} (hf : ∀ p, (f p).length = len) (as : List Poly) :
    (as.map f).flatten.length = as.length * len := by
  induction as with
  | nil => simp
  | cons a as ih =>
    simp only [List.map_cons, List.flatten_cons, List.length_append, hf, ih, List.length_cons]
    ring

/-- The BUF range of a well-formed command ends by byte 4095 (R65). -/
theorem bufRange_le {k : BitVec 4} {i : Instr} {a n : Nat} (h : i.wellFormed k = true)
    (hr : bufRange k i = some (a, n)) : a + n ≤ Config.bufBytes := by
  have hb : bufFits k i = true := (Bool.and_eq_true_iff.mp h).2
  unfold bufFits at hb
  rw [hr] at hb
  simpa using hb

theorem slotsToBuf_wf {f : Poly → List Byte} {len : Nat} (hf : ∀ p, (f p).length = len) {v : Bool} {p : SlotNo}
    {a : BufAddr} {s u : State} (hm : Memory.wf s.buf) (hb : a.toNat + s.count v * len ≤ Config.bufBytes)
    (h : slotsToBuf f v p a s = some u) : Memory.wf u.buf := by
  obtain ⟨as, has, rfl⟩ := slotsToBuf_eq_some.mp h
  refine wf_writeImages hm _ _ ?_
  rw [flatten_map_length hf, (readSlots_eq_some.mp has).1]
  exact hb

/-- Every completion step keeps the canonical form of BUF. -/
theorem exec_keeps_wf {i : Instr} {s t : State} (hm : Memory.wf s.buf) (h : exec i s = .next t) :
    Memory.wf t.buf := by
  obtain ⟨hw, u, hu, rfl⟩ := exec_eq_next.mp h
  show Memory.wf u.buf
  cases i with
  | pack12 v p addr => exact slotsToBuf_wf pack12Image_length hm (bufRange_le hw rfl) hu
  | compress v p d addr => exact slotsToBuf_wf (compressImage_length d.toNat) hm (bufRange_le hw rfl) hu
  | _ =>
    first
    | (cases hu; exact hm)
    | (obtain ⟨_, -, rfl⟩ := slotOp1_eq_some.mp hu; exact hm)
    | (obtain ⟨_, _, -, -, rfl⟩ := slotOp2_eq_some.mp hu; exact hm)
    | (obtain ⟨_, _, _, -, -, -, rfl⟩ := slotOp3_eq_some.mp hu; exact hm)
    | (obtain ⟨_, _, -, -, rfl⟩ := dotOp_eq_some.mp hu; exact hm)
    | (obtain ⟨_, -, rfl⟩ := bufToSlots_eq_some.mp hu; exact hm)

/-! ## Aborting and resetting -/

/-- Everything an abort can change: the slots, BUF and the command in flight (R293). -/
theorem abort_frame (s : State) :
    abort s = { s with slots := (abort s).slots, buf := (abort s).buf, inFlight := none } := by
  unfold abort
  split
  · rename_i i _
    cases i <;> simp only [loseDestinations, loseSlots, loseBuf, bufRange]
  · rfl

/-- An abort keeps the canonical form of BUF. -/
theorem abort_keeps_wf {s : State} (hm : Memory.wf s.buf) : Memory.wf (abort s).buf := by
  unfold abort
  split
  · rename_i i _
    cases i <;> simp only [loseDestinations, loseSlots, loseBuf] <;>
      first | exact hm | (split <;> first | exact Memory.wf_unspecify hm _ _ | exact hm)
  · exact hm

/-- Everything a soft reset leaves (R292): the registers at 0, nothing in flight, and the slots and BUF of the abort. -/
theorem softReset_frame (s : State) :
    softReset s = { State.resetOf s.build with
      slots := (abort s).slots, buf := (abort s).buf, events := s.events, readData := s.readData } := by
  have h := abort_frame s
  unfold softReset
  rw [h]
  rfl

end Sys2Proof.Machine
end

