-- ==== Sys2Proof/Laws/Bus.lean ====
section
/-! SUPPORT. What a host transaction and a step can do, said once: the cases of `issueCheck`, `writeCmd`, `hostRead`,
`hostWrite`, `transact`, `engineStep` and `step`. -/

namespace Sys2Proof.Machine

/-- A word that passes every check decodes to its command, whose ranges fit (R252). -/
theorem issueCheck_eq_ok {k : BitVec 4} {w : Word} {i : Instr} :
    issueCheck k w = .ok i ↔ decode w = .ok i ∧ slotsFit k i = true ∧ bufFits k i = true := by
  unfold issueCheck
  split
  · simp_all
  · rename_i j hj
    by_cases h1 : slotsFit k j = true <;> by_cases h2 : bufFits k j = true <;> simp [h1, h2, hj] <;>
      (rintro rfl; simp_all)

/-- The error a rejected word is recorded with is one of 1 to 6 (R251, R252). -/
theorem issueCheck_error {k : BitVec 4} {w : Word} {e : CmdError} (h : issueCheck k w = .error e) :
    1 ≤ (errorCode e).toNat ∧ (errorCode e).toNat ≤ 6 := by
  revert h
  unfold issueCheck decode
  repeat' split
  all_goals (intro h; cases h)
  all_goals try decide
  all_goals
    rename_i h
    revert h
    repeat' split
    all_goals (intro h; cases h)
    all_goals decide

/-- The numbers of the errors are 1 to 8 (R251). -/
theorem errorCode_range (e : CmdError) : 1 ≤ (errorCode e).toNat ∧ (errorCode e).toNat ≤ 8 := by
  cases e <;> decide

/-- What recording an error leaves (R253). -/
theorem raiseError_frame (e : CmdError) (info : Word) (s : State) :
    raiseError e info s = { s with
      err := true
      errCode := if s.err then s.errCode else errorCode e
      errInfo := if s.err then s.errInfo else info } := by
  unfold raiseError
  cases h : s.err
  · rfl
  · rw [if_pos rfl, if_pos rfl, if_pos rfl, ← h]

/-- A write of CMD: refused while BUSY = 1, accepted, or rejected (R30, R252, R300, R306). -/
theorem writeCmd_cases (w : Word) (s : State) :
    (s.busy = true ∧ writeCmd w s = raiseError .cmdWhileBusy w s) ∨
    (s.busy = false ∧ ∃ i, issueCheck s.build.k w = .ok i ∧
      writeCmd w s = accept w { s with cmd := w, done := false }) ∨
    (s.busy = false ∧ ∃ e, issueCheck s.build.k w = .error e ∧
      writeCmd w s = raiseError e w { s with cmd := w, done := false }) := by
  unfold writeCmd
  by_cases hb : s.busy = true
  · exact .inl ⟨hb, by simp [hb]⟩
  · have hb : s.busy = false := by simpa using hb
    cases hc : issueCheck s.build.k w with
    | ok i => exact .inr (.inl ⟨hb, i, rfl, by simp [hb]⟩)
    | error e => exact .inr (.inr ⟨hb, e, rfl, by simp [hb]⟩)

/-- A word that decodes has a legal width: `decode` makes check 4 itself (R84, R252). -/
theorem decode_widthLegal {w : Word} {i : Instr} (h : decode w = .ok i) : widthLegal i = true := by
  unfold decode formatOf assemble at h
  split at h
  · rename_i f j hf hi
    split at h
    · cases h
    · split at h
      · cases h
      · split at h
        · cases h
        · rename_i hd
          cases h
          revert hf hi
          split <;> (intro hf hi; cases hf <;> cases hi <;> first | rfl | simpa [widthLegal] using hd)
  · cases h

/-- The places of the window: an address is BASE plus an offset below 0x8000 (R60, log entry 3). -/
theorem windowOffset_eq_some {base addr : BitVec 32} {off : Nat} :
    windowOffset base addr = some off ↔ off < 0x8000 ∧ addr = base + BitVec.ofNat 32 off := by
  unfold windowOffset
  constructor
  · intro h
    split at h
    · rename_i hlt
      cases h
      exact ⟨hlt, by rw [BitVec.ofNat_toNat, BitVec.setWidth_eq, BitVec.add_comm, BitVec.sub_add_cancel]⟩
    · cases h
  · rintro ⟨h, rfl⟩
    have he : (base + BitVec.ofNat 32 off - base).toNat = off := by
      rw [BitVec.add_comm, BitVec.add_sub_cancel]
      simp
      omega
    rw [he, if_pos h]

/-- Where the words of the BUF window are (R61, R63). -/
theorem regionAt_eq_bufWord {off w : Nat} :
    regionAt off = .bufWord w ↔ 0x1000 ≤ off ∧ off < 0x2000 ∧ w = (off - 0x1000) / 4 := by
  unfold regionAt
  split
  · split <;> (simp; omega)
  · split
    · simp only [Region.bufWord.injEq]
      omega
    · repeat' split
      all_goals (simp; omega)

/-- Where the words of the POLY window are (R61, R64). -/
theorem regionAt_eq_polyWord {off r i : Nat} :
    regionAt off = .polyWord r i ↔
      0x4000 ≤ off ∧ off < 0x8000 ∧ r = (off - 0x4000) / 512 ∧ i = (off - 0x4000) % 512 / 4 := by
  unfold regionAt
  split
  · split <;> simp <;> omega
  · split
    · simp
      omega
    · split
      · simp
        omega
      · split
        · simp only [Region.polyWord.injEq]
          omega
        · simp
          omega

/-- A host read answers 0 with error 8, or a value without a side effect (R68, R72). -/
theorem hostRead_eq_next {off : Nat} {s t : State} :
    hostRead off s = .next t ↔
      ((s.busy && blockedWhileBusy (regionAt off)) = true ∧
        t = respond 0 (raiseError .accessWhileBusy (accessInfo false off) s)) ∨
      ((s.busy && blockedWhileBusy (regionAt off)) = false ∧
        ∃ v, regionValue (regionAt off) s = some v ∧ t = respond v s) := by
  unfold hostRead
  split
  · rename_i h
    simp [h, eq_comm]
  · rename_i h
    cases hv : regionValue (regionAt off) s <;> simp [h, eq_comm]

/-- The only fault of a host read (R21). -/
theorem hostRead_eq_fault {off : Nat} {s : State} {f : Fault} :
    hostRead off s = .fault f ↔
      (s.busy && blockedWhileBusy (regionAt off)) = false ∧ regionValue (regionAt off) s = none ∧
        f = .readUnspecified := by
  unfold hostRead
  split
  · rename_i h
    simp [h]
  · rename_i h
    cases hv : regionValue (regionAt off) s <;> simp [h, eq_comm]

/-- A host read is never refused. -/
theorem hostRead_ne_refused {off : Nat} {s : State} {r : Refusal} : hostRead off s ≠ .refused r := by
  unfold hostRead
  split
  · simp
  · split <;> simp

/-- A host write does nothing but error 8, or has its place's effect (R68, R72). -/
theorem hostWrite_cases (off : Nat) (v : Word) (s : State) :
    ((s.busy && blockedWhileBusy (regionAt off)) = true ∧
      hostWrite off v s = raiseError .accessWhileBusy (accessInfo true off) s) ∨
    ((s.busy && blockedWhileBusy (regionAt off)) = false ∧ hostWrite off v s = writeRegion (regionAt off) v s) := by
  unfold hostWrite
  split
  · rename_i h
    exact .inl ⟨h, rfl⟩
  · rename_i h
    exact .inr ⟨by simpa using h, rfl⟩

/-- A transaction that has a step is an aligned 32-bit one in the window (R60, R62). -/
theorem transact_eq_next {x : Transaction} {s t : State} :
    transact x s = .next t ↔ ∃ off, windowOffset s.build.base x.addr = some off ∧ x.size = .word ∧ off % 4 = 0 ∧
      ((x.data = none ∧ hostRead off s = .next t) ∨ ∃ v, x.data = some v ∧ t = hostWrite off v s) := by
  unfold transact
  cases hw : windowOffset s.build.base x.addr with
  | none => simp
  | some off =>
    by_cases h : x.size = .word ∧ off % 4 = 0
    · cases hd : x.data <;> simp [h, eq_comm (a := t)]
    · have h' : x.size ≠ .word ∨ off % 4 ≠ 0 := by
        by_contra hc
        exact h (by simpa using hc)
      simp only [h', if_true]
      constructor
      · intro h
        cases h
      · rintro ⟨_, he, h1, h2, -⟩
        cases he
        exact absurd ⟨h1, h2⟩ h

/-- The engine's turn completes the command in flight, or is idle (R265, R301). -/
theorem engineStep_eq_next {s t : State} :
    engineStep s = .next t ↔
      (s.inFlight = none ∧ t = s) ∨ ∃ w i, s.inFlight = some w ∧ decode w = .ok i ∧ exec i s = .next t := by
  unfold engineStep fetch
  cases hf : s.inFlight with
  | none => simp [eq_comm]
  | some w => cases hd : decode w <;> simp [hd]

/-- Everything a step with a next state can be (R290, R297). -/
theorem step_eq_next {s t : State} :
    step s = .next t ↔
      (s.events = [] ∧ engineStep s = .next t) ∨
      ∃ e rest, s.events = e :: rest ∧
        ((e = .complete ∧ engineStep { s with events := rest } = .next t) ∨
          (∃ x, e = .transaction x ∧ transact x { s with events := rest } = .next t) ∨
          (e = .powerOnReset ∧ t = powerOnReset { s with events := rest })) := by
  unfold step
  cases he : s.events with
  | nil => simp
  | cons e rest => cases e <;> simp [eq_comm (a := t)]

end Sys2Proof.Machine
end

