-- ==== Sys2Proof/Laws/PerInstr.lean ====
section
/-! SUPPORT. Statements made for every command as syntax, one lemma a constructor. -/

namespace Sys2Proof.Laws.OpcodeWord

/-- The opcode of each command (R86). -/
def opcodeOf : Instr → Nat
  | .nop => 0x00
  | .montred => 0x01
  | .barred => 0x02
  | .csubq => 0x03
  | .fqmul => 0x04
  | .padd _ _ _ _ => 0x08
  | .psub _ _ _ _ => 0x09
  | .preduce _ _ _ => 0x0A
  | .pcsubq _ _ _ => 0x0B
  | .tomont _ _ _ => 0x0C
  | .ntt _ _ _ => 0x10
  | .invntt _ _ _ => 0x11
  | .pmul _ _ _ _ => 0x12
  | .pmac _ _ _ _ => 0x13
  | .pvdot _ _ _ => 0x14
  | .pack12 _ _ _ => 0x18
  | .unpack12 _ _ _ => 0x19
  | .compress _ _ _ _ => 0x1A
  | .decompress _ _ _ _ => 0x1B
  | .cbd2 _ _ _ => 0x1C

/-- Bits 31:26 of the word of a command are its opcode, and the opcode is assigned (R80, R86). -/
def Statement (i : Instr) : Prop :=
  (opcField (encode i)).toNat = opcodeOf i ∧ (formatOf (opcField (encode i))).isSome = true

theorem opcField_encodeS (opc : BitVec 6) :
    opcField (encodeS opc) = opc := by
  apply BitVec.eq_of_getLsbD_eq
  intro i hi
  simp only [opcField, encodeS, BitVec.getLsbD_extractLsb', BitVec.getLsbD_append]
  interval_cases i <;> simp

theorem opcField_encodeP3 (opc : BitVec 6) (v : Bool) (rd rs1 rs2 : SlotNo) :
    opcField (encodeP3 opc v rd rs1 rs2) = opc := by
  apply BitVec.eq_of_getLsbD_eq
  intro i hi
  simp only [opcField, encodeP3, BitVec.getLsbD_extractLsb', BitVec.getLsbD_append]
  interval_cases i <;> simp

theorem opcField_encodeP2 (opc : BitVec 6) (v : Bool) (rd rs1 : SlotNo) :
    opcField (encodeP2 opc v rd rs1) = opc := by
  apply BitVec.eq_of_getLsbD_eq
  intro i hi
  simp only [opcField, encodeP2, BitVec.getLsbD_extractLsb', BitVec.getLsbD_append]
  interval_cases i <;> simp

theorem opcField_encodeB (opc : BitVec 6) (v : Bool) (p : SlotNo) (d : Width) (addr : BufAddr) :
    opcField (encodeB opc v p d addr) = opc := by
  apply BitVec.eq_of_getLsbD_eq
  intro i hi
  simp only [opcField, encodeB, BitVec.getLsbD_extractLsb', BitVec.getLsbD_append]
  interval_cases i <;> simp

theorem nop : Statement .nop := by
  simp [Statement, encode, opcField_encodeS, opcodeOf, formatOf]

theorem montred : Statement .montred := by
  simp [Statement, encode, opcField_encodeS, opcodeOf, formatOf]

theorem barred : Statement .barred := by
  simp [Statement, encode, opcField_encodeS, opcodeOf, formatOf]

theorem csubq : Statement .csubq := by
  simp [Statement, encode, opcField_encodeS, opcodeOf, formatOf]

theorem fqmul : Statement .fqmul := by
  simp [Statement, encode, opcField_encodeS, opcodeOf, formatOf]

theorem padd (v : Bool) (rd rs1 rs2 : SlotNo) : Statement (.padd v rd rs1 rs2) := by
  simp [Statement, encode, opcField_encodeP3, opcodeOf, formatOf]

theorem psub (v : Bool) (rd rs1 rs2 : SlotNo) : Statement (.psub v rd rs1 rs2) := by
  simp [Statement, encode, opcField_encodeP3, opcodeOf, formatOf]

theorem preduce (v : Bool) (rd rs1 : SlotNo) : Statement (.preduce v rd rs1) := by
  simp [Statement, encode, opcField_encodeP2, opcodeOf, formatOf]

theorem pcsubq (v : Bool) (rd rs1 : SlotNo) : Statement (.pcsubq v rd rs1) := by
  simp [Statement, encode, opcField_encodeP2, opcodeOf, formatOf]

theorem tomont (v : Bool) (rd rs1 : SlotNo) : Statement (.tomont v rd rs1) := by
  simp [Statement, encode, opcField_encodeP2, opcodeOf, formatOf]

theorem ntt (v : Bool) (rd rs1 : SlotNo) : Statement (.ntt v rd rs1) := by
  simp [Statement, encode, opcField_encodeP2, opcodeOf, formatOf]

theorem invntt (v : Bool) (rd rs1 : SlotNo) : Statement (.invntt v rd rs1) := by
  simp [Statement, encode, opcField_encodeP2, opcodeOf, formatOf]

theorem pmul (v : Bool) (rd rs1 rs2 : SlotNo) : Statement (.pmul v rd rs1 rs2) := by
  simp [Statement, encode, opcField_encodeP3, opcodeOf, formatOf]

theorem pmac (v : Bool) (rd rs1 rs2 : SlotNo) : Statement (.pmac v rd rs1 rs2) := by
  simp [Statement, encode, opcField_encodeP3, opcodeOf, formatOf]

theorem pvdot (rd rs1 rs2 : SlotNo) : Statement (.pvdot rd rs1 rs2) := by
  simp [Statement, encode, opcField_encodeP3, opcodeOf, formatOf]

theorem pack12 (v : Bool) (p : SlotNo) (addr : BufAddr) : Statement (.pack12 v p addr) := by
  simp [Statement, encode, opcField_encodeB, opcodeOf, formatOf]

theorem unpack12 (v : Bool) (p : SlotNo) (addr : BufAddr) : Statement (.unpack12 v p addr) := by
  simp [Statement, encode, opcField_encodeB, opcodeOf, formatOf]

theorem compress (v : Bool) (p : SlotNo) (d : Width) (addr : BufAddr) : Statement (.compress v p d addr) := by
  simp [Statement, encode, opcField_encodeB, opcodeOf, formatOf]

theorem decompress (v : Bool) (p : SlotNo) (d : Width) (addr : BufAddr) : Statement (.decompress v p d addr) := by
  simp [Statement, encode, opcField_encodeB, opcodeOf, formatOf]

theorem cbd2 (v : Bool) (p : SlotNo) (addr : BufAddr) : Statement (.cbd2 v p addr) := by
  simp [Statement, encode, opcField_encodeB, opcodeOf, formatOf]

end Sys2Proof.Laws.OpcodeWord
end

