-- ==== Sys2Proof/Tests/Slice0.lean ====
section
/-! SUPPORT. Tests: ill-formed commands, hand-written command words, one step of each command and of the host interface on
small states, and a witness for the hypotheses of every obligation that has some. Expected values come from the rules'
corner cases and examples and from spec/95_test_vectors.md; each test names its source. -/

open Sys2Proof Sys2Proof.Machine Sys2Proof.Claims

namespace Sys2Proof.Tests

/-! ## WellFormed: an ill-formed command for each check -/

/-- A compression width of 0 or 12 is illegal, 1 and 11 are legal (R84, error 4). -/
theorem test_wellFormed_width :
    (Instr.compress false 0 0 0).wellFormed 3 = false ∧ (Instr.decompress false 0 12 0).wellFormed 3 = false ∧
    (Instr.compress false 0 1 0).wellFormed 3 = true ∧ (Instr.decompress false 0 11 0).wellFormed 3 = true := by decide

/-- A vector form may start at slot 29 for K = 3 and not at slot 30 (R232, error 5). -/
theorem test_wellFormed_slots :
    (Instr.padd true 29 0 0).wellFormed 3 = true ∧ (Instr.padd true 30 0 0).wellFormed 3 = false ∧
    (Instr.padd true 0 0 30).wellFormed 3 = false ∧ (Instr.ntt true 0 30).wellFormed 3 = false ∧
    (Instr.padd false 31 31 31).wellFormed 3 = true := by decide

/-- PVDOT's check looks at the two source ranges and not at RD (R232). -/
theorem test_wellFormed_pvdot :
    (Instr.pvdot 31 29 29).wellFormed 3 = true ∧ (Instr.pvdot 0 30 0).wellFormed 3 = false ∧
    (Instr.pvdot 0 0 30).wellFormed 3 = false := by decide

/-- A BUF range may end at byte 4095 and not pass it (R65, R232, error 6). -/
theorem test_wellFormed_buf :
    (Instr.pack12 false 0 3712).wellFormed 3 = true ∧ (Instr.pack12 false 0 3713).wellFormed 3 = false ∧
    (Instr.cbd2 true 0 3712).wellFormed 3 = true ∧ (Instr.cbd2 true 0 3713).wellFormed 3 = false := by decide

/-! ## Decode: words written from the encodings of spec/30_encoding.md -/

/-- Format S (R81): the opcode in bits 31:26 and nothing else. -/
theorem test_decode_scalar :
    decode 0x00000000 = .ok .nop ∧ decode 0x04000000 = .ok .montred ∧ decode 0x08000000 = .ok .barred ∧
    decode 0x0C000000 = .ok .csubq ∧ decode 0x10000000 = .ok .fqmul := by decide

/-- Format P3 (R82) from the examples of R190, R191, R157, R158 and R233, and `PADD.V p1, p0, p0` of R235. -/
theorem test_decode_p3 :
    decode 0x20200400 = .ok (.padd false 2 0 1) ∧ decode 0x24200400 = .ok (.psub false 2 0 1) ∧
    decode 0x48308400 = .ok (.pmul false 3 1 1) ∧ decode 0x4C308400 = .ok (.pmac false 3 1 1) ∧
    decode 0x50A00C00 = .ok (.pvdot 10 0 3) ∧ decode 0x22100000 = .ok (.padd true 1 0 0) := by decide

/-- Format P2 (R83) from the examples of R192, R193, R194, R153 and R155. -/
theorem test_decode_p2 :
    decode 0x28310000 = .ok (.preduce false 3 2) ∧ decode 0x2C310000 = .ok (.pcsubq false 3 2) ∧
    decode 0x30310000 = .ok (.tomont false 3 2) ∧ decode 0x40100000 = .ok (.ntt false 1 0) ∧
    decode 0x44208000 = .ok (.invntt false 2 1) := by decide

/-- Formats B and BD (R84) from the examples of R195, R196, R199, R200 and R181. -/
theorem test_decode_b :
    decode 0x60000000 = .ok (.pack12 false 0 0) ∧ decode 0x64100000 = .ok (.unpack12 false 1 0) ∧
    decode 0x6A4A0100 = .ok (.compress true 4 10 0x100) ∧ decode 0x6C610000 = .ok (.decompress false 6 1 0) ∧
    decode 0x70500200 = .ok (.cbd2 false 5 0x200) := by decide

/-- R88: an unassigned opcode, V on a scalar command and on PVDOT, a reserved bit of each format, and D out of range. -/
theorem test_decode_rejects :
    decode 0x14000000 = .error .illegalOpcode ∧ decode 0xFC000000 = .error .illegalOpcode ∧
    decode 0x02000000 = .error .illegalV ∧ decode 0x52000000 = .error .illegalV ∧
    decode 0x00000001 = .error .reservedBits ∧ decode 0x20000001 = .error .reservedBits ∧
    decode 0x40004000 = .error .reservedBits ∧ decode 0x68018000 = .error .reservedBits ∧
    decode 0x60010000 = .error .illegalD ∧ decode 0x68000000 = .error .illegalD ∧
    decode 0x680C0000 = .error .illegalD := by decide

/-- The encoder writes the worked word of R91's example, and the all-zero word for NOP (R124). -/
theorem test_encode :
    encode (.compress true 4 10 0x100) = 0x6A4A0100 ∧ encode .nop = 0 ∧ encode (.pvdot 10 0 3) = 0x50A00C00 := by decide

/-- A table word without its operand bits. -/
theorem test_decodeTableWord :
    decodeTableWord 32 0x04000000 = some .montred ∧ decodeTableWord 32 0x68000000 = none := by decide

/-! ## Small states -/

/-- The polynomial with every coefficient `c`. -/
def constPoly (c : Coef) : Poly := Vector.replicate 256 c

/-- The polynomial of a list of first coefficients, the others 0. -/
def headPoly (l : List Coef) : Poly := Poly.ofList (l ++ List.replicate (256 - l.length) 0)

/-- (1, 0, 1, 0, …), the transform of 1 (R153's example). -/
def onesPoly : Poly := Poly.ofList (List.replicate 128 [1, 0]).flatten

/-- The state after reset with polynomials in the slots from 0 up. -/
def withSlots (ps : List Poly) : State := { State.reset with slots := writeSlots State.reset.slots 0 ps }

/-- The state after reset with bytes in BUF from byte 0 up. -/
def withBytes (bs : List Byte) : State := { State.reset with buf := cellsFrom 0 bs }

/-- The state after reset with `w` in flight. -/
def busyWith (w : Word) : State := { State.reset with cmd := w, inFlight := some w }

/-- Six slots with the constants 1 to 6, on K = 3. -/
def sixSlots : State := withSlots ((List.range 6).map fun i => constPoly (BitVec.ofNat 16 (i + 1)))

/-- 1152 bytes 0x5A, three 384-byte images. -/
def bytes5A : State := withBytes (List.replicate 1152 0x5A)

/-- Coefficient `i` of slot `r` of a next state. -/
def coefOf (o : Host.Outcome State Fault Refusal) (r i : Nat) : Option Coef :=
  match o with
  | .next t => SlotFile.readCoef t.slots r i
  | _ => none

/-- Byte `x` of BUF of a next state. -/
def byteOf (o : Host.Outcome State Fault Refusal) (x : Nat) : Option Byte :=
  match o with
  | .next t => Memory.read t.buf x
  | _ => none

/-- SR of a next state. -/
def srOf (o : Host.Outcome State Fault Refusal) : Option Coef :=
  match o with
  | .next t => some t.sr
  | _ => none

/-- The scalar command `i` with SA and SB. -/
def scalar (i : Instr) (sa sb : Word) : Option Coef := srOf (exec i { State.reset with sa := sa, sb := sb })

/-! ## Each command on a small state -/

/-- NOP with CMDCOUNT = 5 leaves CMDCOUNT = 6 and DONE = 1 (R124). -/
theorem test_nop_counts :
    (exec .nop { State.reset with cmdCount := 5, inFlight := some 0 }) =
      .next { State.reset with cmdCount := 6, done := true } := by rfl

/-- MONTRED: R125's corner cases, inside and outside the domain. -/
theorem test_montred :
    scalar .montred 1 0 = some 169 ∧ scalar .montred 0x06807FFF 0 = some 3160 ∧
    scalar .montred 0xF97F8000 0 = some 0 ∧ scalar .montred 0x06808000 0 = some 3329 ∧
    scalar .montred 0x7FFFFFF6 0 = some (-31129) ∧ scalar .montred 0x80000000 0 = some (-32768) := by decide +kernel

/-- BARRED: R126's corner cases; bits 31:16 of SA are ignored. -/
theorem test_barred :
    scalar .barred 0x00008000 0 = some 522 ∧ scalar .barred 0x12340D01 0 = some 0 ∧
    scalar .barred 0x0000FFFF 0 = some 3328 ∧ scalar .barred 0x00007FFF 0 = some 2806 := by decide +kernel

/-- CSUBQ: R127's corner cases. -/
theorem test_csubq :
    scalar .csubq 3328 0 = some 3328 ∧ scalar .csubq 3329 0 = some 0 ∧ scalar .csubq 6658 0 = some 3329 ∧
    scalar .csubq 0xFFFF 0 = some (-1) ∧ scalar .csubq 0x8000 0 = some (-32768) := by decide +kernel

/-- FQMUL: R128's corner cases. -/
theorem test_fqmul :
    scalar .fqmul 2285 17 = some 17 ∧ scalar .fqmul 1353 1 = some (-1044) ∧
    scalar .fqmul 0x8000 0x8000 = some 16384 ∧ scalar .fqmul 0x7FFF 0x7FFF = some 16552 := by decide +kernel

/-- PADD wraps: 32767 + 1 is −32768, and 3328 + 1 is 3329 (R190). -/
theorem test_padd :
    let s := withSlots [headPoly [32767, 3328], headPoly [1, 1]]
    (List.range 3).map (coefOf (exec (.padd false 2 0 1) s) 2) = [some (-32768), some 3329, some 0] := by decide +kernel

/-- `PADD.V p1, p0, p0` reads every source before it writes: 2, 4, 6 from 1, 2, 3, 4 (R235). -/
theorem test_padd_vector :
    let s := withSlots [headPoly [1], headPoly [2], headPoly [3], headPoly [4]]
    (List.range 4).map (fun r => coefOf (exec (.padd true 1 0 0) s) r 0) = [some 1, some 2, some 4, some 6] := by
  decide +kernel

/-- PSUB is RS1 minus RS2 and wraps (R191). -/
theorem test_psub :
    let s := withSlots [headPoly [0, -32768], headPoly [1, 1]]
    (List.range 2).map (coefOf (exec (.psub false 2 0 1) s) 2) = [some (-1), some 32767] := by decide +kernel

/-- PREDUCE (R192). -/
theorem test_preduce :
    let s := withSlots [headPoly [-1, 32767, -32768, 3329]]
    (List.range 4).map (coefOf (exec (.preduce false 3 0) s) 3) = [some 3328, some 2806, some 522, some 0] := by
  decide +kernel

/-- PCSUBQ subtracts once (R193). -/
theorem test_pcsubq :
    let s := withSlots [headPoly [3329, 6658, -1]]
    (List.range 3).map (coefOf (exec (.pcsubq false 3 0) s) 3) = [some 0, some 3329, some (-1)] := by decide +kernel

/-- TOMONT (R194). -/
theorem test_tomont :
    let s := withSlots [headPoly [0, 1, -1, 3328, 2285]]
    (List.range 5).map (coefOf (exec (.tomont false 3 0) s) 3) = [some 0, some 2285, some 1044, some 1044, some 1353] := by
  decide +kernel

/-- NTT of 1 is (1, 0, 1, 0, …) (R153). -/
theorem test_ntt_one : (nttF (headPoly [1])).toList = onesPoly.toList := by decide +kernel

/-- NTT outside the bound: every coefficient 32767 (spec/95_test_vectors.md 2.2). -/
theorem test_ntt_wraps :
    (nttF (constPoly 32767)).toList.take 8 = [2227, 2227, 428, 428, 743, 743, 1415, 1415] := by decide +kernel

/-- INVNTT of (1, 0, 1, 0, …) is 2285 (R155). -/
theorem test_invntt_ones : (invnttF onesPoly).toList = (headPoly [2285]).toList := by decide +kernel

/-- INVNTT of every coefficient 16383 (spec/95_test_vectors.md 2.2). -/
theorem test_invntt_bound : (invnttF (constPoly 16383)).toList = (headPoly [550, 550]).toList := by decide +kernel

/-- NTT and INVNTT as commands write the slot of the other number (R153, R155). -/
theorem test_ntt_commands :
    coefOf (exec (.ntt false 1 0) (withSlots [headPoly [1]])) 1 254 = some 1 ∧
    coefOf (exec (.invntt false 2 0) (withSlots [onesPoly])) 2 0 = some 2285 := by decide +kernel

/-- PMUL of (1, 0, …) by itself is (169, 0, …) (R157). -/
theorem test_pmul :
    let s := withSlots [onesPoly]
    (List.range 3).map (coefOf (exec (.pmul false 3 0 0) s) 3) = [some 169, some 0, some 169] := by decide +kernel

/-- PMUL of the transforms of X and X^255: (3160, 0, …), which is −169 modulo Q (spec/95_test_vectors.md 2.2). -/
theorem test_pmul_twiddle :
    (mulPoly (nttF (headPoly [0, 1])) (nttF (Poly.ofList (List.replicate 255 0 ++ [1])))).toList =
      (List.replicate 128 [3160, 0]).flatten := by decide +kernel

/-- PMAC with every accumulator coefficient 26111 (spec/95_test_vectors.md 2.2). -/
theorem test_pmac :
    let s := withSlots [onesPoly, constPoly 26111]
    (List.range 3).map (coefOf (exec (.pmac false 1 0 0) s) 1) = [some 2977, some 2808, some 2977] := by decide +kernel

/-- PVDOT of six (1, 0, …) on K = 3 is (507, 0, …), in a slot beside its sources (R233). -/
theorem test_pvdot :
    let s := withSlots (List.replicate 6 onesPoly)
    (List.range 3).map (coefOf (exec (.pvdot 10 0 3) s) 10) = [some 507, some 0, some 507] := by decide +kernel

/-- PACK12 of (1, 2, 3328, 100, 0, …) (R195), and its reduction of −1 and 3329. -/
theorem test_pack12 :
    (List.range 6).map (byteOf (exec (.pack12 false 0 0) (withSlots [headPoly [1, 2, 3328, 100]]))) =
      [some 0x01, some 0x20, some 0x00, some 0x00, some 0x4D, some 0x06] ∧
    (pack12Image (headPoly [-1, 3329])).take 3 = [0x00, 0x0D, 0x00] := by decide +kernel

/-- UNPACK12 does not reduce: FF FF FF gives (4095, 4095), and BC 3A 12 gives (2748, 291) (R196, spec/95_test_vectors.md
E9). -/
theorem test_unpack12 :
    let s := withBytes ([0xFF, 0xFF, 0xFF, 0xBC, 0x3A, 0x12] ++ List.replicate 378 0)
    (List.range 4).map (coefOf (exec (.unpack12 false 1 0) s) 1) = [some 4095, some 4095, some 2748, some 291] := by
  decide +kernel

/-- COMPRESS with d = 4: R199's corner cases 104 → 0, 105 → 1, 1664 → 8, 3224 → 15, 3225 → 0, 3328 → 0, two values a byte
with the lower index in bits 3:0 (R66). -/
theorem test_compress :
    let s := withSlots [headPoly [104, 105, 1664, 3224, 3225, 3328]]
    (List.range 3).map (fun x => byteOf (exec (.compress false 0 4 7) s) (7 + x)) =
      [some 0x10, some 0xF8, some 0x00] := by decide +kernel

/-- DECOMPRESS: R200's example with d = 1, and its corner cases with d = 4, 10 and 11. -/
theorem test_decompress :
    let s := withBytes (0x05 :: List.replicate 31 0)
    (List.range 4).map (coefOf (exec (.decompress false 6 1 0) s) 6) = [some 1665, some 0, some 1665, some 0] ∧
    decompressCoef 4 15 = 3121 ∧ decompressCoef 10 1023 = 3326 ∧ decompressCoef 11 2047 = 3327 := by decide +kernel

/-- CBD2: R181's example, the bytes 13 0C FF 5A. -/
theorem test_cbd2 :
    let s := withBytes ([0x13, 0x0C, 0xFF, 0x5A] ++ List.replicate 124 0)
    (List.range 9).map (coefOf (exec (.cbd2 false 5 0) s) 5) =
      [some 2, some 1, some (-2), some 0, some 0, some 0, some 0, some 0, some 0] := by decide +kernel

/-- CBD2: a second row of spec/95_test_vectors.md 2.3, the bytes 01 02 04 08. -/
theorem test_cbd2_low_nibbles :
    (cbd2F ([0x01, 0x02, 0x04, 0x08] ++ List.replicate 124 0)).toList.take 8 = [1, 0, 1, 0, -1, 0, -1, 0] := by
  decide +kernel

/-! ## The host interface, errors and resets -/

/-- From reset: a host write of CMD = 0 is accepted, the engine completes NOP, and STATUS reads DONE (R300, R301). -/
theorem test_issue_and_complete :
    step { State.reset with
      events := [.transaction { addr := 0x010, size := .word, data := some 0 }, .complete] } =
      .next { State.reset with inFlight := some 0, events := [.complete] } ∧
    step { State.reset with inFlight := some 0, events := [.complete] } =
      .next { State.reset with done := true, cmdCount := 1 } := ⟨rfl, rfl⟩

/-- A source that nothing has written is the fault ReadUnspecified (R21). -/
theorem test_readUnspecified : exec (.ntt false 1 0) State.reset = .fault .readUnspecified := by rfl

/-- R252's order: an unassigned opcode with V and reserved bits is error 1, and the word is kept in CMD and ERRINFO. -/
theorem test_illegal_opcode :
    hostWrite 0x010 0x17FFFFFF State.reset =
      { State.reset with cmd := 0x17FFFFFF, err := true, errCode := 1, errInfo := 0x17FFFFFF } := by rfl

/-- Error 8 on a read and a write of SA while BUSY = 1: the read returns 0, ERRINFO is W and the offset (R31, R72). -/
theorem test_access_while_busy :
    hostRead 0x018 (busyWith 0) =
      .next { busyWith 0 with err := true, errCode := 8, errInfo := 0x00000018, readData := some 0 } ∧
    hostWrite 0x7FFC 5 (busyWith 0) = { busyWith 0 with err := true, errCode := 8, errInfo := 0x80007FFC } := ⟨rfl, rfl⟩

/-- Error 7 keeps CMD and the command in flight, and a second error is lost (R253, R306). -/
theorem test_cmd_while_busy :
    hostWrite 0x010 0x04000000 (busyWith 0) = { busyWith 0 with err := true, errCode := 7, errInfo := 0x04000000 } ∧
    hostWrite 0x018 1 { busyWith 0 with err := true, errCode := 7, errInfo := 0x04000000 } =
      { busyWith 0 with err := true, errCode := 7, errInfo := 0x04000000 } := ⟨rfl, rfl⟩

/-- ID and PARAM at K = 3 (R33, R34). -/
theorem test_id_param :
    registerValue .id State.reset = 0x414C4301 ∧ registerValue .param State.reset = 0xD01C2023 := by decide

/-- CMD, ERRINFO and CMDCOUNT read what they hold while BUSY = 1 (R30 to R32, R72). -/
theorem test_control_reads :
    hostRead 0x010 (busyWith 0x04000000) = .next { busyWith 0x04000000 with readData := some 0x04000000 } ∧
    hostRead 0x014 { busyWith 0 with errInfo := 5 } = .next { busyWith 0 with errInfo := 5, readData := some 5 } ∧
    hostRead 0x024 { busyWith 0 with cmdCount := 6 } = .next { busyWith 0 with cmdCount := 6, readData := some 6 } :=
  ⟨rfl, rfl, rfl⟩

/-- SR reads sign-extended (R37): −169 is 0xFFFFFF57 (spec/95_test_vectors.md 2.1). -/
theorem test_sr_sign_extends : registerValue .sr { State.reset with sr := -169 } = 0xFFFFFF57 := by decide +kernel

/-- IRQ is the level of R256: DONE with IE_DONE, and bit 12 of STATUS beside DONE in bit 1. -/
theorem test_irq :
    statusWord { State.reset with done := true, ieDone := true } = 0x1002 ∧
    statusWord { State.reset with err := true, errCode := 8, ieDone := true } = 0x0804 := by decide +kernel

/-- The BUF window is little-endian (R63). -/
theorem test_buf_window :
    hostWrite 0x1004 0x44332211 State.reset = { State.reset with buf := [(4, 0x11), (5, 0x22), (6, 0x33), (7, 0x44)] } ∧
    hostRead 0x1004 { State.reset with buf := [(4, 0x11), (5, 0x22), (6, 0x33), (7, 0x44)] } =
      .next { State.reset with buf := [(4, 0x11), (5, 0x22), (6, 0x33), (7, 0x44)], readData := some 0x44332211 } ∧
    hostRead 0x1004 { State.reset with buf := [(4, 0x11), (5, 0x22), (6, 0x33)] } = .fault .readUnspecified :=
  ⟨rfl, rfl, rfl⟩

/-- The last word of the POLY window is coefficients 254 and 255 of slot 31 (R64). -/
theorem test_poly_window :
    let s := hostWrite 0x7FFC 0xFFFF0D01 State.reset
    SlotFile.readCoef s.slots 31 254 = some 3329 ∧ SlotFile.readCoef s.slots 31 255 = some (-1) ∧
    SlotFile.readCoef s.slots 31 253 = none := by decide +kernel

/-- A halfword access and a misaligned one are refused, and an address outside the window does not exist (R60, R62). -/
theorem test_refused_transactions :
    transact { addr := 0x018, size := .half, data := none } State.reset = .refused .unsupportedAccess ∧
    transact { addr := 0x01A, size := .word, data := some 1 } State.reset = .refused .unsupportedAccess ∧
    transact { addr := 0x8000, size := .word, data := none } State.reset = .fault .outsideWindow := ⟨rfl, rfl, rfl⟩

/-- A soft reset while `NTT p1, p0` is in flight: the destination becomes unspecified, the source keeps its value (R293). -/
theorem test_abort :
    let s := hostWrite 0x008 0x80000003 { withSlots [constPoly 1, constPoly 2] with inFlight := some 0x40100000 }
    SlotFile.readCoef s.slots 0 255 = some 1 ∧ SlotFile.readCoef s.slots 1 0 = none ∧ s.inFlight = none ∧
    s.ieDone = false := by decide +kernel

/-- A soft reset while PACK12 is in flight makes its 384 bytes unspecified and no other (R293). -/
theorem test_abort_buf :
    let s := hostWrite 0x008 0x80000000 { withBytes (List.replicate 390 7) with inFlight := some 0x60000002 }
    [0, 1, 2, 385, 386].map (Memory.read s.buf) = [some 7, some 7, none, none, some 7] := by decide +kernel

/-- A command word placed where the engine takes it runs in the very next step. -/
theorem test_withFetchWord :
    step (State.reset.withFetchWord 32 0x04000000) =
      .next { State.reset with cmd := 0x04000000, done := true, cmdCount := 1 } := by rfl

/-! ## Witnesses: states and operands that meet the hypotheses of the obligations -/

/-- Slots of `withSlots` hold the polynomials they were given. -/
theorem slotsHold_withSlots {ps : List Poly} (h : ps.length ≤ 32) {r n : Nat} {a : Nat → Poly}
    (ha : ∀ j < n, ps[r + j]? = some (a j)) : SlotsHold (withSlots ps) r n a := by
  intro j hj
  obtain ⟨h1, h2⟩ := List.getElem?_eq_some_iff.mp (ha j hj)
  have h3 := readPoly_writeSlots (f := State.reset.slots) (r := 0) (j := r + j) h1 (by omega)
  rw [h2, Nat.zero_add] at h3
  exact h3

/-- Bytes of `withBytes` hold what they were given. -/
theorem bytesHold_withBytes {bs : List Byte} {x n : Nat} {b : Nat → Byte} (hb : ∀ j < n, bs[x + j]? = some (b j)) :
    BytesHold (withBytes bs) x n b := by
  intro j hj
  have h := Memory.read_cellsFrom bs 0 (x + j)
  rw [if_pos (Nat.zero_le _), Nat.sub_zero, hb j hj] at h
  exact h

/-- DecodeEncodeAgree: the boundary widths. -/
theorem test_witness_DecodeEncodeAgree :
    widthLegal (.compress true 4 1 0x100) = true ∧ widthLegal (.decompress false 31 11 4095) = true ∧
    widthLegal (.pvdot 10 0 3) = true := by decide

/-- LegalWordsHaveOneMeaning: a word that decodes. -/
theorem test_witness_LegalWordsHaveOneMeaning : decode 0x6A4A0100 = .ok (.compress true 4 10 0x100) := by decide

/-- MatchAndMaskTable: a row and a word that matches it, at D = 1 and D = 11, and a row with a mask of all bits. -/
theorem test_witness_MatchAndMaskTable :
    ((0x1A, 0xFC00F000) ∈ maskRows ∧ 0x68010000#32 &&& 0xFC00F000 = BitVec.ofNat 32 (0x1A * 2 ^ 26) ∧
      LegalWidth (bits 0x68010000 16 4) ∧ LegalWidth (bits 0x680B0000 16 4)) ∧
    (0x04, 0xFFFFFFFF) ∈ maskRows ∧ 0x10000000#32 &&& 0xFFFFFFFF = BitVec.ofNat 32 (0x04 * 2 ^ 26) := by
  unfold LegalWidth
  decide

/-- CmdWriteChecksInOrder: BUSY = 0, and a word for each answer of R252's checks on K = 3. -/
theorem test_witness_CmdWriteChecksInOrder :
    State.reset.busy = false ∧
    [0x6A4A0100#32, 0x17FFFFFF, 0x03FFFFFF, 0x680FF000, 0x680CFFFF &&& 0xFFFF0FFF, 0x23E00000, 0x60000FFF].map
      (firstError 3) = [0, 1, 2, 3, 4, 5, 6] := by decide

/-- StepRunsDecodedCommand: a command in flight with nothing to come and with the engine next, and an idle engine. -/
theorem test_witness_StepRunsDecodedCommand :
    (busyWith 0x04000000).inFlight = some 0x04000000 ∧ decode 0x04000000 = .ok .montred ∧
    (busyWith 0x04000000).events = [] ∧
    ({ busyWith 0x04000000 with events := [.complete] } : State).events = [.complete] ∧
    State.reset.inFlight = none ∧ State.reset.events = [] := by decide

/-- MontgomeryContract: the ends of the input range and of the contract domain (R120). -/
theorem test_witness_MontgomeryContract :
    (-2 ^ 31 ≤ (-2147483648 : Int) ∧ (2147483647 : Int) < 2 ^ 31) ∧ mont (-109084672) = 0 ∧ mont 109084671 = 3160 ∧
    mont 2147483647 = 32599 ∧ mont (-2147483648) = -32768 := by decide +kernel

/-- MontgomeryProduct: the largest product with one operand in [−3328, 3328] is in the domain (R121). -/
theorem test_witness_MontgomeryProduct :
    |(3328#16).toInt * (-32768#16).toInt| = 109051904 ∧ (109051904 : Int) ≤ 109084671 := by decide

/-- CsubqSubtractsOnce: the ends of the two ranges (R123). -/
theorem test_witness_CsubqSubtractsOnce :
    (csubq 0).toInt = 0 ∧ (csubq 6657).toInt = 3328 ∧ (csubq 6658).toInt = 3329 ∧ (csubq 32767).toInt = 29438 := by
  decide +kernel

/-- PaddWrapsSums, PsubWrapsDifferences, PmulWritesProducts, PmacAccumulates (accumulator at slot 1) and PvdotSumsProducts:
vector and single form, sources and destinations overlapping. -/
theorem test_witness_PaddWrapsSums :
    (Instr.padd true 1 0 3).wellFormed sixSlots.build.k = true ∧
    (Instr.padd false 0 0 3).wellFormed sixSlots.build.k = true ∧
    (Instr.psub true 1 0 3).wellFormed sixSlots.build.k = true ∧
    (Instr.pmul true 1 0 3).wellFormed sixSlots.build.k = true ∧
    (Instr.pmac true 1 0 3).wellFormed sixSlots.build.k = true ∧
    (Instr.pvdot 5 0 3).wellFormed sixSlots.build.k = true ∧ sixSlots.count true = 3 ∧ sixSlots.count false = 1 ∧
    SlotsHold sixSlots 0 3 (fun j => constPoly (BitVec.ofNat 16 (j + 1))) ∧
    SlotsHold sixSlots 1 3 (fun j => constPoly (BitVec.ofNat 16 (j + 2))) ∧
    SlotsHold sixSlots 3 3 (fun j => constPoly (BitVec.ofNat 16 (j + 4))) := by
  refine ⟨by decide, by decide, by decide, by decide, by decide, by decide, by decide, by decide, ?_, ?_, ?_⟩ <;>
    refine slotsHold_withSlots (by simp) ?_ <;> intro j hj <;> interval_cases j <;> rfl

/-- PreduceWritesResidues, PcsubqSubtractsOnce, TomontScales, NttWritesTransform, InvnttWritesTransform,
Pack12StoresResidues and CompressStoresRoundings: ranges that end at slot 31 and at byte 4095 among them. -/
theorem test_witness_PreduceWritesResidues :
    (Instr.preduce true 1 0).wellFormed sixSlots.build.k = true ∧
    (Instr.pcsubq true 1 0).wellFormed sixSlots.build.k = true ∧
    (Instr.tomont true 29 0).wellFormed sixSlots.build.k = true ∧
    (Instr.ntt true 1 0).wellFormed sixSlots.build.k = true ∧
    (Instr.invntt false 31 0).wellFormed sixSlots.build.k = true ∧
    (Instr.pack12 true 0 2944).wellFormed sixSlots.build.k = true ∧
    (Instr.compress true 0 11 3040).wellFormed sixSlots.build.k = true ∧
    SlotsHold sixSlots 0 3 (fun j => constPoly (BitVec.ofNat 16 (j + 1))) := by
  refine ⟨by decide, by decide, by decide, by decide, by decide, by decide, by decide, ?_⟩
  refine slotsHold_withSlots (by simp) ?_
  intro j hj
  interval_cases j <;> rfl

/-- Unpack12ReturnsFields, DecompressWritesRoundings and Cbd2SamplesNibbles, in the vector form. -/
theorem test_witness_Unpack12ReturnsFields :
    (Instr.unpack12 true 29 0).wellFormed bytes5A.build.k = true ∧
    (Instr.decompress true 0 11 0).wellFormed bytes5A.build.k = true ∧
    (Instr.cbd2 true 0 0).wellFormed bytes5A.build.k = true ∧
    BytesHold bytes5A 0 (bytes5A.count true * 384) (fun _ => 0x5A) ∧
    BytesHold bytes5A 0 (bytes5A.count true * (32 * (11 : Width).toNat)) (fun _ => 0x5A) ∧
    BytesHold bytes5A 0 (bytes5A.count true * 128) (fun _ => 0x5A) := by
  refine ⟨by decide, by decide, by decide, ?_, ?_, ?_⟩ <;> refine bytesHold_withBytes ?_ <;> intro j hj <;>
    rw [Nat.zero_add] <;> refine List.getElem?_replicate_of_lt (Nat.lt_of_lt_of_le hj ?_) <;> decide

/-- BasemulMultipliesPairs: the two places of the last block, and a pair of polynomials with every product in MONT's
domain. -/
theorem test_witness_BasemulMultipliesPairs :
    (63 < 64 ∧ (252 = 4 * 63 ∧ zeta 127 = zeta (64 + 63)) ∧ (254 = 4 * 63 + 2 ∧ -zeta 127 = -zeta (64 + 63))) ∧
    ∀ p < 128, ∀ x ∈ [2 * p, 2 * p + 1], ∀ y ∈ [2 * p, 2 * p + 1],
      |coefAt (constPoly 3328) x * coefAt (constPoly (-32768)) y| ≤ 109084671 := by
  refine ⟨⟨by decide, ⟨rfl, rfl⟩, ⟨rfl, rfl⟩⟩, fun p hp x hx y hy => ?_⟩
  have h1 : x < 256 := by simp at hx; omega
  have h2 : y < 256 := by simp at hy; omega
  simp only [coefAt, constPoly, Vector.getElem?_replicate, h1, h2, if_true, Option.getD_some]
  decide

/-- InverseTransformScales: a canonical polynomial with the largest coefficient. -/
theorem test_witness_InverseTransformScales : Canonical (constPoly 3328) := by
  intro i hi
  simp only [coefAt, constPoly, Vector.getElem?_replicate, hi, if_true, Option.getD_some]
  decide

/-- BitStreamPacking: the ends of the widths, a byte string of the right length and values that fit. -/
theorem test_witness_BitStreamPacking :
    (1 ≤ 12 ∧ 12 ≤ 12) ∧ (List.replicate 384 (0xFF : Byte)).length = 32 * 12 ∧
    (List.replicate 32 (0xFF : Byte)).length = 32 * 1 ∧ ∀ i < 256, (get (constPoly 4095) i).toNat < 2 ^ 12 := by
  refine ⟨by decide, List.length_replicate, List.length_replicate, fun i hi => ?_⟩
  simp only [Claims.get, constPoly, Vector.getElem?_replicate, hi, if_true, Option.getD_some]
  decide

/-- SamplerNibbles: 128 bytes. -/
theorem test_witness_SamplerNibbles : (List.replicate 128 (0xFF : Byte)).length = 128 := List.length_replicate

/-- CompressRounding, DecompressRounding and CompressionError: the ends of the widths and the largest field. -/
theorem test_witness_CompressRounding :
    LegalWidth 1 ∧ LegalWidth 11 ∧ (2047#16).toNat < 2 ^ 11 ∧ (1#16).toNat < 2 ^ 1 := by
  unfold LegalWidth
  decide

/-- AlignedWordsOnly: the last word of the window at two values of BASE, the last halfword, and the address after it. -/
theorem test_witness_AlignedWordsOnly :
    (0x7FFC < 0x8000 ∧ 0x7FFC % 4 = 0 ∧ 0x40007FFC#32 = 0x40000000 + BitVec.ofNat 32 0x7FFC) ∧
    windowOffset 0x40000000 0x40007FFC = some 0x7FFC ∧ windowOffset 0xFFFFF000 0x00000FFC = some 0x1FFC ∧
    (0x7FFE < 0x8000 ∧ (0x7FFE#32 : BitVec 32) = State.reset.build.base + BitVec.ofNat 32 0x7FFE) ∧
    transact { addr := 0x7FFE, size := .word, data := none } State.reset = .refused .unsupportedAccess ∧
    ∀ off : Nat, off < 0x8000 → (0x8000#32 : BitVec 32) ≠ State.reset.build.base + BitVec.ofNat 32 off := by
  refine ⟨by decide, by decide, by decide, by decide, rfl, fun off h he => ?_⟩
  have := congrArg BitVec.toNat he
  simp [State.reset, State.resetOf, Config.defaultBuild] at this
  omega

/-- BufWindowLittleEndian: the last word of BUF, with its bytes specified and with one missing. -/
theorem test_witness_BufWindowLittleEndian :
    (1023 < 1024 ∧ State.reset.busy = false) ∧
    BytesHold { State.reset with buf := cellsFrom 4092 [1, 2, 3, 4] } (4 * 1023) 4 (fun i => BitVec.ofNat 8 (i + 1)) ∧
    ∃ i < 4, Memory.read { State.reset with buf := cellsFrom 4092 [1, 2, 3] }.buf (4 * 1023 + i) = none := by
  refine ⟨by decide, fun j hj => ?_, 3, by decide, by decide⟩
  interval_cases j <;> rfl

/-- PolyWindowTwoCoefficients: the last word of slot 31, specified and not. -/
theorem test_witness_PolyWindowTwoCoefficients :
    (31 < 32 ∧ 127 < 128 ∧ State.reset.busy = false) ∧ SlotFile.readCoef State.reset.slots 31 254 = none ∧
    SlotFile.readCoef (withSlots (List.replicate 32 (constPoly 9))).slots 31 254 = some 9 ∧
    SlotFile.readCoef (withSlots (List.replicate 32 (constPoly 9))).slots 31 255 = some 9 := by decide +kernel

/-- BlockedWhileBusy: BUSY = 1, the blocked offsets at the ends of their ranges, and the ones beside them. -/
theorem test_witness_BlockedWhileBusy :
    (busyWith 0).busy = true ∧ (∀ off ∈ [0x018, 0x020, 0x1000, 0x1FFC, 0x4000, 0x7FFC],
      wordOffset off ∧ blockedOffset off) ∧
    ∀ off ∈ [0x000, 0x014, 0x024, 0xFFC, 0x2000, 0x3FFC], wordOffset off ∧ ¬blockedOffset off := by
  unfold wordOffset blockedOffset
  decide

/-- ReadOnlyAndReserved: BUSY = 0 for SR, and the ends of the reserved ranges. -/
theorem test_witness_ReadOnlyAndReserved :
    State.reset.busy = false ∧ ∀ off ∈ [0x028, 0xFFC, 0x2000, 0x3FFC],
      wordOffset off ∧ ((0x028 ≤ off ∧ off < 0x1000) ∨ (0x2000 ≤ off ∧ off < 0x4000)) := by
  unfold wordOffset
  decide

/-- IdAndParamConstant: K = 3, and a step with a next state. -/
theorem test_witness_IdAndParamConstant : State.reset.build.k = 3 ∧ step State.reset = .next State.reset := ⟨rfl, rfl⟩

/-- FirstErrorKept: a state with an error and one without; ScalarRegisterAccess: BUSY = 0. -/
theorem test_witness_FirstErrorKept :
    State.reset.err = false ∧ State.reset.busy = false ∧ ({ State.reset with err := true } : State).err = true := by
  decide

/-- StatusAndCtrlAccess and SoftResetClearsRegisters: CTRL values with bit 31 = 0 and = 1, on an idle and a busy block. -/
theorem test_witness_StatusAndCtrlAccess :
    (0x7FFFFFFF : Word).getLsbD 31 = false ∧ (0x80000000 : Word).getLsbD 31 = true ∧ State.reset.busy = false ∧
    (busyWith 0).busy = true := by decide

/-- CmdWriteWhileBusy and BusyKeepsInputs: BUSY = 1 and writes that are no soft reset, of CTRL and of POLY. -/
theorem test_witness_BusyKeepsInputs :
    (busyWith 0).busy = true ∧ wordOffset 0x008 ∧ ¬(0x008 = 0x008 ∧ (3 : Word).getLsbD 31 = true) ∧
    wordOffset 0x7FFC ∧ ¬(0x7FFC = 0x008 ∧ (0xFFFFFFFF : Word).getLsbD 31 = true) := by
  unfold wordOffset
  decide

/-- PowerOnState: a power-on reset is next. -/
theorem test_witness_PowerOnState :
    ({ busyWith 0 with events := [.powerOnReset, .complete] } : State).events = .powerOnReset :: [.complete] := rfl

/-- AbortLosesDestinations: a legal command with slot destinations and one with BUF destinations in flight. -/
theorem test_witness_AbortLosesDestinations :
    (0x80000000 : Word).getLsbD 31 = true ∧ (busyWith 0x42100000).inFlight = some 0x42100000 ∧
    issueCheck (busyWith 0x42100000).build.k 0x42100000 = .ok (.ntt true 1 0) ∧
    (busyWith 0x60000C80).inFlight = some 0x60000C80 ∧
    issueCheck (busyWith 0x60000C80).build.k 0x60000C80 = .ok (.pack12 false 0 0xC80) := by decide

/-- UnspecifiedSourceFaults: a legal command, whose sources are unspecified after reset, and one that is not legal; a word
that passes the checks, and a CMD write that sets BUSY. -/
theorem test_witness_UnspecifiedSourceFaults :
    (Instr.pmac true 29 0 0).wellFormed State.reset.build.k = true ∧
    (Instr.pmac true 30 0 0).wellFormed State.reset.build.k = false ∧
    issueCheck State.reset.build.k 0x6A4A0100 = .ok (.compress true 4 10 0x100) ∧ State.reset.busy = false ∧
    (hostWrite 0x010 0x6A4A0100 State.reset).busy = true := by decide

/-- CmdCountCountsCompletions: a step of each of its three kinds. -/
theorem test_witness_CmdCountCountsCompletions :
    (takesCompletion (busyWith 0) ∧ step (busyWith 0) = .next (complete (busyWith 0))) ∧
    (takesReset { busyWith 0 with events := [.powerOnReset] } ∧
      step { busyWith 0 with events := [.powerOnReset] } = .next State.reset) ∧
    ¬takesCompletion State.reset ∧ ¬takesReset State.reset := by
  refine ⟨⟨⟨rfl, .inl rfl⟩, rfl⟩, ⟨.inl ⟨[], rfl⟩, rfl⟩, ?_, ?_⟩
  · rintro ⟨h, -⟩
    cases h
  · intro h
    rcases h with ⟨_, h⟩ | ⟨_, _, _, h, _⟩ <;> cases h

/-- OnlyTheseStepsChangeSlots: a host write of the POLY window changes a slot. -/
theorem test_witness_OnlyTheseStepsChangeSlots :
    let s := { State.reset with events := [.transaction { addr := 0x4000, size := .word, data := some 1 }] }
    step s = .next (hostWrite 0x4000 1 State.reset) ∧
    SlotFile.readCoef (hostWrite 0x4000 1 State.reset).slots 0 0 = some 1 ∧
    SlotFile.readCoef s.slots 0 0 = none := ⟨rfl, by decide +kernel, by decide +kernel⟩

/-- StepKeepsInvariant: a busy state that meets the invariant and has a next state. -/
theorem test_witness_StepKeepsInvariant :
    State.Inv (busyWith 0) ∧ step (busyWith 0) = .next (complete (busyWith 0)) := by
  refine ⟨?_, rfl⟩
  constructor
  · exact Memory.wf_nil
  · decide
  · exact fun _ => ⟨rfl, rfl⟩
  · intro h
    cases h
  · intro w h
    cases h
    exact ⟨rfl, rfl, .nop, by decide⟩

end Sys2Proof.Tests
end

section
/-! SUPPORT. The scope of the block: what every step keeps, that is the build (spec/00_scope.md R10) and `State.Inv`. -/

namespace Sys2Proof.Machine

/-! ## The build is constant (R10) -/

@[simp] theorem abort_build (s : State) : (abort s).build = s.build := by
  rw [abort_frame]

@[simp] theorem softReset_build (s : State) : (softReset s).build = s.build := by
  rw [softReset_frame]
  rfl

@[simp] theorem writeCtrl_build (v : Word) (s : State) : (writeCtrl v s).build = s.build := by
  unfold writeCtrl
  split
  · exact softReset_build s
  · rfl

/-- A write of STATUS clears DONE or not, and then the error record or not (R29, R254). -/
theorem writeStatus_cases (v : Word) (s : State) :
    ∃ s1, (s1 = s ∨ s1 = { s with done := false }) ∧ (writeStatus v s = s1 ∨ writeStatus v s = clearError s1) := by
  refine ⟨if v.getLsbD 1 then { s with done := false } else s, (ite_eq_or_eq _ _ _).symm, ?_⟩
  exact (ite_eq_or_eq _ _ _).symm

@[simp] theorem writeStatus_build (v : Word) (s : State) : (writeStatus v s).build = s.build := by
  obtain ⟨s1, rfl | rfl, h | h⟩ := writeStatus_cases v s <;> simp [h]

@[simp] theorem writeCmd_build (w : Word) (s : State) : (writeCmd w s).build = s.build := by
  obtain ⟨-, h⟩ | ⟨-, _, -, h⟩ | ⟨-, _, -, h⟩ := writeCmd_cases w s <;> simp [h]

@[simp] theorem writeRegister_build (r : Register) (v : Word) (s : State) :
    (writeRegister r v s).build = s.build := by
  cases r <;> simp [writeRegister]

@[simp] theorem writeRegion_build (g : Region) (v : Word) (s : State) :
    (writeRegion g v s).build = s.build := by
  cases g with
  | register r => exact writeRegister_build r v s
  | bufWord w => rfl
  | polyWord slot i => rfl
  | reserved => rfl

@[simp] theorem hostWrite_build (off : Nat) (v : Word) (s : State) : (hostWrite off v s).build = s.build := by
  obtain ⟨-, h⟩ | ⟨-, h⟩ := hostWrite_cases off v s <;> simp [h]

theorem hostRead_keeps_build {off : Nat} {s t : State} (h : hostRead off s = .next t) : t.build = s.build := by
  obtain ⟨-, rfl⟩ | ⟨-, v, -, rfl⟩ := hostRead_eq_next.mp h <;> simp

theorem transact_keeps_build {x : Transaction} {s t : State} (h : transact x s = .next t) :
    t.build = s.build := by
  obtain ⟨off, -, -, -, ⟨-, hread⟩ | ⟨v, -, rfl⟩⟩ := transact_eq_next.mp h
  · exact hostRead_keeps_build hread
  · exact hostWrite_build off v s

theorem engineStep_keeps_build {s t : State} (h : engineStep s = .next t) : t.build = s.build := by
  obtain ⟨-, rfl⟩ | ⟨_, _, -, -, hexec⟩ := engineStep_eq_next.mp h
  · rfl
  · rw [exec_frame hexec]
    rfl

theorem step_keeps_build {s t : State} (h : step s = .next t) : t.build = s.build := by
  obtain ⟨-, he⟩ | ⟨_, rest, -, ⟨-, he⟩ | ⟨x, -, hx⟩ | ⟨-, rfl⟩⟩ := step_eq_next.mp h
  · exact engineStep_keeps_build he
  · exact engineStep_keeps_build (s := { s with events := rest }) he
  · exact transact_keeps_build (s := { s with events := rest }) hx
  · rfl

/-! ## Reads of ID and PARAM (R33, R34) -/

/-- A register that R72 does not block reads its value without a side effect, whether the block is busy or not (R68). -/
theorem hostRead_register {off : Nat} {r : Register} (s : State) (hoff : regionAt off = .register r)
    (hfree : blockedWhileBusy (.register r) = false) :
    hostRead off s = .next (respond (registerValue r s) s) :=
  hostRead_eq_next.mpr (.inr ⟨by simp [hoff, hfree], registerValue r s, by rw [hoff]; rfl, rfl⟩)

/-- PARAM as a number: the rank is its low four bits and the rest is the same in every build (R34). -/
theorem toNat_paramValue (b : Config.Build) : (Config.paramValue b).toNat = 0xD01C2020 + b.k.toNat := by
  have h : ∀ k : BitVec 4, (0xD01#12 ++ 12#4 ++ 32#8 ++ 2#4 ++ k).toNat = 0xD01C2020 + k.toNat := by decide
  exact h b.k

/-- Settles O47: the reads from `hostRead_register`, the fields from PARAM as a number, the build from
`step_keeps_build`. -/
theorem idAndParamConstant : Obligations.IdAndParamConstant := by
  unfold Obligations.IdAndParamConstant
  refine ⟨fun s => ⟨hostRead_register (r := .id) s rfl rfl, Config.paramValue s.build,
    hostRead_register (r := .param) s rfl rfl, ?_⟩, fun _ _ => step_keeps_build⟩
  have hparam := toNat_paramValue s.build
  have hk := s.build.k.isLt
  unfold Claims.bits
  refine ⟨by omega, by omega, by omega, by omega, by omega, fun h3 => BitVec.eq_of_toNat_eq ?_⟩
  rw [hparam, h3]
  rfl

/-! ## `State.Inv`, one operation at a time -/

section Inv
variable {s t : State} (h : s.Inv)
include h

/-- The events still to come are no part of the invariant. -/
theorem State.Inv.withEvents (es : List Event) : State.Inv { s with events := es } :=
  ⟨h.mem, h.rank, h.clear, h.code, h.flight⟩

theorem respond_keeps_inv (v : Word) : (respond v s).Inv :=
  ⟨h.mem, h.rank, h.clear, h.code, h.flight⟩

/-- The recorded code is the one already there or that of the error raised now, and both are 1 to 8 (R251, R253). -/
theorem raiseError_keeps_inv (e : CmdError) (info : Word) : (raiseError e info s).Inv where
  mem := by simpa using h.mem
  rank := by simpa using h.rank
  clear := by simp
  code _ := by
    rw [raiseError_errCode]
    split
    · exact h.code ‹_›
    · exact errorCode_range e
  flight := by simpa using h.flight

theorem clearError_keeps_inv : (clearError s).Inv where
  mem := h.mem
  rank := h.rank
  clear _ := ⟨rfl, rfl⟩
  code hf := nomatch hf
  flight := h.flight

/-- Clearing DONE keeps the invariant: a command in flight needs DONE = 0 (R29). -/
theorem State.Inv.withDoneFalse : State.Inv { s with done := false } where
  mem := h.mem
  rank := h.rank
  clear := h.clear
  code := h.code
  flight w hw := by
    obtain ⟨hcmd, -, hok⟩ := h.flight w hw
    exact ⟨hcmd, rfl, hok⟩

/-- A completion step leaves nothing in flight and the error record as it was (R301). -/
theorem exec_keeps_inv {i : Instr} (he : exec i s = .next t) : t.Inv := by
  have hmem := exec_keeps_wf h.mem he
  rw [exec_frame he]
  exact ⟨hmem, h.rank, h.clear, h.code, fun _ hw => nomatch hw⟩

theorem engineStep_keeps_inv (he : engineStep s = .next t) : t.Inv := by
  obtain ⟨-, rfl⟩ | ⟨_, _, -, -, hexec⟩ := engineStep_eq_next.mp he
  · exact h
  · exact exec_keeps_inv h hexec

/-- A reset state meets the invariant on a legal rank, whatever the reset left in the slots and in BUF. -/
theorem State.Inv.resetOf (f : SlotFile) {m : Memory} (hm : m.wf) (es : List Event) (r : Option Word) :
    State.Inv { State.resetOf s.build with slots := f, buf := m, events := es, readData := r } where
  mem := hm
  rank := h.rank
  clear _ := ⟨rfl, rfl⟩
  code hf := nomatch hf
  flight _ hw := nomatch hw

theorem powerOnReset_keeps_inv : (powerOnReset s).Inv :=
  h.resetOf _ Memory.wf_nil _ _

theorem softReset_keeps_inv : (softReset s).Inv := by
  rw [softReset_frame]
  exact h.resetOf _ (abort_keeps_wf h.mem) _ _

/-! ### Host writes -/

theorem writeCtrl_keeps_inv (v : Word) : (writeCtrl v s).Inv := by
  unfold writeCtrl
  split
  · exact softReset_keeps_inv h
  · exact ⟨h.mem, h.rank, h.clear, h.code, h.flight⟩

theorem writeStatus_keeps_inv (v : Word) : (writeStatus v s).Inv := by
  obtain ⟨s1, hs1, hw⟩ := writeStatus_cases v s
  have hinv : s1.Inv := by
    obtain rfl | rfl := hs1
    · exact h
    · exact h.withDoneFalse
  obtain hw | hw := hw <;> rw [hw]
  · exact hinv
  · exact clearError_keeps_inv hinv

/-- With nothing in flight CMD is free to change. -/
theorem State.Inv.withCmd (hidle : s.busy = false) (w : Word) : State.Inv { s with cmd := w, done := false } where
  mem := h.mem
  rank := h.rank
  clear := h.clear
  code := h.code
  flight w' hw := by
    have hbusy : s.busy = true := by simp [State.busy, show s.inFlight = some w' from hw]
    simp [hidle] at hbusy

/-- Only a word that passed every check, and that the same write put in CMD, goes in flight (R300, R306). -/
theorem writeCmd_keeps_inv (w : Word) : (writeCmd w s).Inv := by
  obtain ⟨-, hw⟩ | ⟨hidle, i, hok, hw⟩ | ⟨hidle, e, -, hw⟩ := writeCmd_cases w s <;> rw [hw]
  · exact raiseError_keeps_inv h _ _
  · refine ⟨h.mem, h.rank, h.clear, h.code, fun w' hw' => ?_⟩
    cases hw'
    exact ⟨rfl, rfl, i, hok⟩
  · exact raiseError_keeps_inv (h.withCmd hidle w) _ _

theorem writeRegister_keeps_inv (r : Register) (v : Word) : (writeRegister r v s).Inv := by
  cases r with
  | ctrl => exact writeCtrl_keeps_inv h v
  | status => exact writeStatus_keeps_inv h v
  | cmd => exact writeCmd_keeps_inv h v
  | sa => exact ⟨h.mem, h.rank, h.clear, h.code, h.flight⟩
  | sb => exact ⟨h.mem, h.rank, h.clear, h.code, h.flight⟩
  | id => exact h
  | param => exact h
  | errInfo => exact h
  | sr => exact h
  | cmdCount => exact h

/-- The 1024 words of the BUF window end by byte 4095 (R63). -/
theorem writeBufWord_keeps_inv {w : Nat} (hw : w < 1024) (v : Word) : (writeBufWord w v s).Inv where
  mem := Memory.wf_writeBytes h.mem _ _ (by simp [Config.bufBytes]; omega)
  rank := h.rank
  clear := h.clear
  code := h.code
  flight := h.flight

theorem writeRegion_keeps_inv (off : Nat) (v : Word) : (writeRegion (regionAt off) v s).Inv := by
  cases hg : regionAt off with
  | register r => exact writeRegister_keeps_inv h r v
  | bufWord w =>
    have hw := regionAt_eq_bufWord.mp hg
    exact writeBufWord_keeps_inv h (by omega) v
  | polyWord slot i => exact ⟨h.mem, h.rank, h.clear, h.code, h.flight⟩
  | reserved => exact h

theorem hostWrite_keeps_inv (off : Nat) (v : Word) : (hostWrite off v s).Inv := by
  obtain ⟨-, hw⟩ | ⟨-, hw⟩ := hostWrite_cases off v s <;> rw [hw]
  · exact raiseError_keeps_inv h _ _
  · exact writeRegion_keeps_inv h off v

theorem hostRead_keeps_inv {off : Nat} (hr : hostRead off s = .next t) : t.Inv := by
  obtain ⟨-, rfl⟩ | ⟨-, v, -, rfl⟩ := hostRead_eq_next.mp hr
  · exact respond_keeps_inv (raiseError_keeps_inv h _ _) 0
  · exact respond_keeps_inv h v

theorem transact_keeps_inv {x : Transaction} (hx : transact x s = .next t) : t.Inv := by
  obtain ⟨off, -, -, -, ⟨-, hread⟩ | ⟨v, -, rfl⟩⟩ := transact_eq_next.mp hx
  · exact hostRead_keeps_inv h hread
  · exact hostWrite_keeps_inv h off v

theorem step_keeps_inv (hs : step s = .next t) : t.Inv := by
  obtain ⟨-, he⟩ | ⟨_, rest, -, ⟨-, he⟩ | ⟨x, -, hx⟩ | ⟨-, rfl⟩⟩ := step_eq_next.mp hs
  · exact engineStep_keeps_inv h he
  · exact engineStep_keeps_inv (h.withEvents rest) he
  · exact transact_keeps_inv (h.withEvents rest) hx
  · exact powerOnReset_keeps_inv (h.withEvents rest)

end Inv

/-- Settles O59: the engine, a transaction and a power-on reset each keep the invariant. -/
theorem stepKeepsInvariant : Obligations.StepKeepsInvariant :=
  fun _ _ => step_keeps_inv

end Sys2Proof.Machine
end

section
/-! SUPPORT. What one step is (spec/60_exceptions.md R258, spec/70_reset_and_hazards.md R290, R297): a completion, a reset
or a host access, and the host accesses that R72 does not block. -/

namespace Sys2Proof.Machine

open Sys2Proof.Claims

/-! ## The kinds of step -/

/-- What a step from `s` to `t` was: a completion, a reset, or neither of them; `es` are the events it leaves. -/
inductive StepKind (s t : State) : Prop
  | completion (i : Instr) (es : List Event) (hturn : takesCompletion s)
      (hexec : exec i { s with events := es } = .next t)
  | reset (es : List Event) (hreset : takesReset s)
      (ht : t = powerOnReset { s with events := es } ∨ t = softReset { s with events := es })
  | idle (es : List Event) (hc : ¬takesCompletion s) (hr : ¬takesReset s) (ht : t = { s with events := es })
  | read (off : Nat) (es : List Event) (hc : ¬takesCompletion s) (hr : ¬takesReset s)
      (hread : hostRead off { s with events := es } = .next t)
  | write (x : Transaction) (off : Nat) (v : Word) (es : List Event) (hc : ¬takesCompletion s) (hr : ¬takesReset s)
      (hev : s.events = .transaction x :: es) (hoff : windowOffset s.build.base x.addr = some off)
      (hdata : x.data = some v) (hsoft : off = 0x008 → v.getLsbD 31 = false)
      (ht : t = hostWrite off v { s with events := es })

/-! ## Accesses that R72 does not block -/

theorem hostWrite_of_free {off : Nat} {s : State} (h : (s.busy && blockedWhileBusy (regionAt off)) = false) (v : Word) :
    hostWrite off v s = writeRegion (regionAt off) v s := by
  simp [hostWrite, h]

theorem hostRead_of_free {off : Nat} {s : State} {v : Word}
    (h : (s.busy && blockedWhileBusy (regionAt off)) = false) (hv : regionValue (regionAt off) s = some v) :
    hostRead off s = .next (respond v s) :=
  hostRead_eq_next.mpr (.inr ⟨h, v, hv, rfl⟩)

/-- While BUSY = 0 nothing is blocked (R72). -/
theorem idle_free {s : State} (h : s.busy = false) (off : Nat) :
    (s.busy && blockedWhileBusy (regionAt off)) = false := by
  simp [h]

/-- A register that R72 does not block takes a write with its own effect, whether the block is busy or not. -/
theorem hostWrite_register {off : Nat} {r : Register} (v : Word) (s : State) (hoff : regionAt off = .register r)
    (hfree : blockedWhileBusy (.register r) = false) : hostWrite off v s = writeRegister r v s := by
  rw [hostWrite_of_free (by simp [hoff, hfree]), hoff, writeRegion]

/-- A write of CTRL with bit 31 = 1 is a soft reset, busy or not (R292). -/
theorem hostWrite_softReset {v : Word} (h : v.getLsbD 31 = true) (s : State) : hostWrite 0x008 v s = softReset s := by
  rw [hostWrite_register (r := .ctrl) v s rfl rfl, writeRegister, writeCtrl, if_pos h]

/-! ## Every step is of one kind -/

/-- The engine and a reset take different events (R290, R297). -/
theorem takesReset_not_takesCompletion {s : State} (hr : takesReset s) : ¬takesCompletion s := by
  rintro ⟨-, hc⟩
  obtain ⟨_, h⟩ | ⟨_, _, _, h, -⟩ := hr <;> simp [h] at hc

/-- A transaction in the window is a reset exactly when it writes bit 31 of CTRL (R292). -/
theorem takesReset_transaction {s : State} {x : Transaction} {es : List Event} {off : Nat}
    (hev : s.events = .transaction x :: es) (hoff : windowOffset s.build.base x.addr = some off) :
    takesReset s ↔ off = 0x008 ∧ ∃ v, x.data = some v ∧ v.getLsbD 31 = true := by
  constructor
  · rintro (⟨_, h⟩ | ⟨x', v, _, h, haddr, hdata, hv⟩) <;> rw [hev] at h <;> cases h
    have h8 : windowOffset s.build.base x.addr = some 0x008 := windowOffset_eq_some.mpr ⟨by decide, haddr⟩
    exact ⟨Option.some.inj (hoff.symm.trans h8), v, hdata, hv⟩
  · rintro ⟨rfl, v, hdata, hv⟩
    exact .inr ⟨x, v, es, hev, (windowOffset_eq_some.mp hoff).2, hdata, hv⟩

/-- The engine's turn is a completion while BUSY = 1 and idle otherwise (R265, R301). -/
theorem engineStep_kind {s t : State} {es : List Event} (hturn : s.events = [] ∨ s.events = .complete :: es)
    (h : engineStep { s with events := es } = .next t) : StepKind s t := by
  obtain ⟨hnone, rfl⟩ | ⟨w, i, hw, -, hexec⟩ := engineStep_eq_next.mp h
  · have hidle : s.busy = false := by simp [State.busy, show s.inFlight = none from hnone]
    refine .idle es (fun hc => ?_) ?_ rfl
    · exact absurd (hidle.symm.trans hc.1) Bool.false_ne_true
    · rintro (⟨_, hev⟩ | ⟨_, _, _, hev, -⟩) <;> simp [hev] at hturn
  · have hbusy : s.busy = true := by simp [State.busy, show s.inFlight = some w from hw]
    exact .completion i es ⟨hbusy, hturn.imp_right fun hev => ⟨es, hev⟩⟩ hexec

theorem transact_kind {s t : State} {x : Transaction} {es : List Event} (hev : s.events = .transaction x :: es)
    (h : transact x { s with events := es } = .next t) : StepKind s t := by
  obtain ⟨off, hoff, -, -, hacc⟩ := transact_eq_next.mp h
  have hreset := takesReset_transaction hev hoff
  have hc : ¬takesCompletion s := by
    rintro ⟨-, hc⟩
    simp [hev] at hc
  obtain ⟨hdata, hread⟩ | ⟨v, hdata, ht⟩ := hacc
  · exact .read off es hc (by simp [hreset, hdata]) hread
  · by_cases hsoft : off = 0x008 ∧ v.getLsbD 31 = true
    · obtain ⟨rfl, hv⟩ := hsoft
      exact .reset es (hreset.mpr ⟨rfl, v, hdata, hv⟩) (.inr (ht.trans (hostWrite_softReset hv _)))
    · refine .write x off v es hc ?_ hev hoff hdata (fun h8 => by simpa [h8] using hsoft) ht
      intro hr
      obtain ⟨h8, v', hv', hbit⟩ := hreset.mp hr
      cases hdata.symm.trans hv'
      exact hsoft ⟨h8, hbit⟩

theorem step_kind {s t : State} (h : step s = .next t) : StepKind s t := by
  obtain ⟨hev, he⟩ | ⟨_, es, hev, ⟨rfl, he⟩ | ⟨x, rfl, hx⟩ | ⟨rfl, ht⟩⟩ := step_eq_next.mp h
  · exact engineStep_kind (es := []) (.inl hev) (by rwa [← hev])
  · exact engineStep_kind (.inr hev) he
  · exact transact_kind hev hx
  · exact .reset es (.inl ⟨es, hev⟩) (.inl ht)

end Sys2Proof.Machine
end

section
/-! SUPPORT. The registers of the control region (spec/10_state.md R26 to R42): what the host reads and writes there, busy
or not, and the state after a power-on reset. -/

namespace Sys2Proof.Machine

open Sys2Proof.Claims

/-! ## Reserved offsets and read-only registers (R27, R61) -/

/-- Offsets past the last register of the control region, and those between the two data windows, are reserved. -/
theorem regionAt_eq_reserved {off : Nat} (h : (0x028 ≤ off ∧ off < 0x1000) ∨ (0x2000 ≤ off ∧ off < 0x4000)) :
    regionAt off = .reserved := by
  unfold regionAt
  obtain ⟨hlo, hhi⟩ | ⟨hlo, hhi⟩ := h
  · have hnone : registerAt off = none := by
      unfold registerAt
      split <;> first | omega | rfl
    rw [if_pos hhi, hnone]
  · rw [if_neg (by omega), if_neg (by omega), if_pos hhi]

/-- Settles O46: a read-only register keeps the state in `writeRegister`, a reserved offset in `writeRegion`. -/
theorem readOnlyAndReserved : Obligations.ReadOnlyAndReserved := by
  unfold Obligations.ReadOnlyAndReserved
  intro s v
  refine ⟨?_, fun hidle => hostWrite_of_free (off := 0x020) (idle_free hidle _) v, ?_⟩
  · simp only [List.forall_mem_cons, List.not_mem_nil, false_implies, implies_true, and_true]
    exact ⟨hostWrite_register (r := .id) v s rfl rfl, hostWrite_register (r := .param) v s rfl rfl,
      hostWrite_register (r := .errInfo) v s rfl rfl, hostWrite_register (r := .cmdCount) v s rfl rfl⟩
  · intro off _ hoff
    have hres := regionAt_eq_reserved hoff
    have hfree : (s.busy && blockedWhileBusy (regionAt off)) = false := by simp [hres, blockedWhileBusy]
    exact ⟨by rw [hostWrite_of_free hfree, hres, writeRegion], hostRead_of_free hfree (by rw [hres, regionValue])⟩

/-! ## The scalar registers (R35 to R37) -/

/-- Settles O48: with BUSY = 0 each access is its register's own. -/
theorem scalarRegisterAccess : Obligations.ScalarRegisterAccess := by
  unfold Obligations.ScalarRegisterAccess
  intro s v hidle
  have hfree := idle_free hidle
  exact ⟨hostWrite_of_free (hfree 0x018) v, hostWrite_of_free (hfree 0x01C) v, hostRead_of_free (hfree 0x018) rfl,
    hostRead_of_free (hfree 0x01C) rfl, hostRead_of_free (hfree 0x020) rfl⟩

/-! ## STATUS and CTRL (R28, R29, R254) -/

/-- The word a read of STATUS returns, field by field; the bits R29 does not name are 0. -/
theorem statusWord_fields (s : State) :
    (statusWord s).getLsbD 0 = s.busy ∧ (statusWord s).getLsbD 1 = s.done ∧ (statusWord s).getLsbD 2 = s.err ∧
      bits (statusWord s) 3 5 = 0 ∧ bits (statusWord s) 8 4 = s.errCode.toNat ∧ (statusWord s).getLsbD 12 = s.irq ∧
      bits (statusWord s) 13 19 = 0 := by
  have h : ∀ (irq err done busy : Bool) (c : BitVec 4),
      let x : Word :=
        0#19 ++ BitVec.ofBool irq ++ c ++ 0#5 ++ BitVec.ofBool err ++ BitVec.ofBool done ++ BitVec.ofBool busy
      x.getLsbD 0 = busy ∧ x.getLsbD 1 = done ∧ x.getLsbD 2 = err ∧ bits x 3 5 = 0 ∧ bits x 8 4 = c.toNat ∧
        x.getLsbD 12 = irq ∧ bits x 13 19 = 0 := by decide
  exact h s.irq s.err s.done s.busy s.errCode

/-- The word a read of CTRL returns, field by field; SRST and the reserved bits are 0 (R28). -/
theorem ctrlWord_fields (s : State) :
    (ctrlWord s).getLsbD 0 = s.ieDone ∧ (ctrlWord s).getLsbD 1 = s.ieErr ∧ bits (ctrlWord s) 2 30 = 0 := by
  have h : ∀ e d : Bool, let x : Word := 0#30 ++ BitVec.ofBool e ++ BitVec.ofBool d
      x.getLsbD 0 = d ∧ x.getLsbD 1 = e ∧ bits x 2 30 = 0 := by decide
  exact h s.ieErr s.ieDone

/-- The W1C write of STATUS, field by field (R29, R254). -/
theorem writeStatus_eq (v : Word) (s : State) :
    writeStatus v s = { s with
      done := s.done && !v.getLsbD 1
      err := s.err && !v.getLsbD 2
      errCode := if v.getLsbD 2 then 0 else s.errCode
      errInfo := if v.getLsbD 2 then 0 else s.errInfo } := by
  unfold writeStatus
  cases v.getLsbD 1 <;> cases v.getLsbD 2 <;> simp [clearError]

theorem writeCtrl_eq {v : Word} (h : v.getLsbD 31 = false) (s : State) :
    writeCtrl v s = { s with ieDone := v.getLsbD 0, ieErr := v.getLsbD 1 } := by
  rw [writeCtrl, if_neg (by rw [h]; decide)]

/-- Settles O50: R72 blocks none of these registers, so each access has its own effect at every time. -/
theorem statusAndCtrlAccess : Obligations.StatusAndCtrlAccess := by
  unfold Obligations.StatusAndCtrlAccess
  intro s
  refine ⟨⟨statusWord s, hostRead_register (r := .status) s rfl rfl, statusWord_fields s⟩,
    ⟨ctrlWord s, hostRead_register (r := .ctrl) s rfl rfl, ctrlWord_fields s⟩,
    hostRead_register (r := .cmd) s rfl rfl, hostRead_register (r := .errInfo) s rfl rfl,
    hostRead_register (r := .cmdCount) s rfl rfl, fun v => ?_, fun v hv => ?_⟩
  · rw [hostWrite_register (r := .status) v s rfl rfl]
    exact writeStatus_eq v s
  · rw [hostWrite_register (r := .ctrl) v s rfl rfl]
    exact writeCtrl_eq hv s

/-! ## CMD while BUSY = 1 (R30, R306) -/

/-- Settles O51: of the cases of a CMD write only the refusal has BUSY = 1. -/
theorem cmdWriteWhileBusy : Obligations.CmdWriteWhileBusy := by
  unfold Obligations.CmdWriteWhileBusy
  intro s w hbusy
  rw [hostWrite_register (r := .cmd) w s rfl rfl, writeRegister]
  obtain ⟨-, hw⟩ | ⟨hidle, -⟩ | ⟨hidle, -⟩ := writeCmd_cases w s
  · rw [hw, raiseError, errorCode]
  · simp [hidle] at hbusy
  · simp [hidle] at hbusy

/-! ## The state after a power-on reset (R42, R290) -/

/-- After a power-on reset no coefficient has a value (R42). -/
theorem readCoef_resetOf (b : Config.Build) (r i : Nat) : SlotFile.readCoef (State.resetOf b).slots r i = none := by
  by_cases hr : r < 32 <;> by_cases hi : i < 256 <;>
    simp [SlotFile.readCoef, State.resetOf, SlotData.unspecified, hr, hi]

/-- Settles O53: the step is `powerOnReset`, which keeps the events to come (log entry 12), and `State.resetOf` shows
every field; `State.reset` is it on the model's build (log entry 2). -/
theorem powerOnState : Obligations.PowerOnState := by
  unfold Obligations.PowerOnState
  refine ⟨fun s rest hev => ?_, fun b => ?_⟩
  · exact step_eq_next.mpr (.inr ⟨.powerOnReset, rest, hev, .inr (.inr ⟨rfl, rfl⟩)⟩)
  · exact ⟨rfl, rfl, rfl, rfl, rfl, rfl, rfl, rfl, rfl, rfl, rfl, rfl, rfl, readCoef_resetOf b, fun _ => rfl,
      ⟨rfl, rfl, rfl⟩, rfl⟩

/-- The power-on state of a build with a legal rank meets the invariant. -/
theorem State.resetOf_inv {b : Config.Build} (hk : b.k ≠ 0) : (State.resetOf b).Inv where
  mem := Memory.wf_nil
  rank := hk
  clear _ := ⟨rfl, rfl⟩
  code h := nomatch h
  flight _ h := nomatch h

/-- Settles O60: the default build's rank, 3, is a legal one. -/
theorem resetMeetsInvariant : Obligations.ResetMeetsInvariant :=
  State.resetOf_inv (b := Config.defaultBuild) (by decide)

end Sys2Proof.Machine
end

section
/-! SUPPORT. When a command finds all its sources, and what a CMD write accepts (spec/10_state.md R21, R22;
spec/60_exceptions.md R250, R252). -/

namespace Sys2Proof.Machine

open Sys2Proof.Claims

/-! ## Reads of a range fail where one location of it is unspecified -/

/-- One of the slots of a list is unspecified: a coefficient of it has no value (R21). -/
def SlotMissing (f : SlotFile) (l : List Nat) : Prop := ∃ r ∈ l, SlotFile.readPoly f r = none

/-- One of the bytes at a list of addresses is unspecified (R21). -/
def ByteMissing (m : Memory) (l : List Nat) : Prop := ∃ x ∈ l, Memory.read m x = none

section Missing
variable (f : SlotFile) (m : Memory) (x : Nat) (l l' : List Nat)

@[simp] theorem slotMissing_nil : ¬SlotMissing f [] := by simp [SlotMissing]

@[simp] theorem slotMissing_cons : SlotMissing f (x :: l) ↔ SlotFile.readPoly f x = none ∨ SlotMissing f l :=
  List.exists_mem_cons_iff ..

@[simp] theorem slotMissing_append : SlotMissing f (l ++ l') ↔ SlotMissing f l ∨ SlotMissing f l' := by
  simp only [SlotMissing, List.mem_append, or_and_right, exists_or]

@[simp] theorem byteMissing_nil : ¬ByteMissing m [] := by simp [ByteMissing]

@[simp] theorem byteMissing_cons : ByteMissing m (x :: l) ↔ Memory.read m x = none ∨ ByteMissing m l :=
  List.exists_mem_cons_iff ..

@[simp] theorem byteMissing_append : ByteMissing m (l ++ l') ↔ ByteMissing m l ∨ ByteMissing m l' := by
  simp only [ByteMissing, List.mem_append, or_and_right, exists_or]

end Missing

theorem readSlots_eq_none {f : SlotFile} {r n : Nat} :
    readSlots f r n = none ↔ SlotMissing f (List.range' r n) := by
  induction n generalizing r with
  | zero => simp [readSlots]
  | succ n ih =>
    rw [List.range'_succ, slotMissing_cons, ← ih, readSlots]
    cases SlotFile.readPoly f r <;> cases readSlots f (r + 1) n <;> simp

theorem Memory.readBytes_eq_none {m : Memory} {a n : Nat} :
    Memory.readBytes m a n = none ↔ ByteMissing m (List.range' a n) := by
  induction n generalizing a with
  | zero => simp [Memory.readBytes]
  | succ n ih =>
    rw [List.range'_succ, byteMissing_cons, ← ih, Memory.readBytes]
    cases Memory.read m a <;> cases Memory.readBytes m (a + 1) n <;> simp

/-- Consecutive images are one range of bytes (R231). -/
theorem readImages_eq_none {m : Memory} {len a n : Nat} :
    readImages m len a n = none ↔ ByteMissing m (List.range' a (len * n)) := by
  induction n generalizing a with
  | zero => simp [readImages]
  | succ n ih =>
    rw [Nat.mul_succ, Nat.add_comm (len * n), ← List.range'_append_1, byteMissing_append,
      ← Memory.readBytes_eq_none, ← ih, readImages]
    cases Memory.readBytes m a len <;> cases readImages m len (a + len) n <;> simp

/-! ## An operand form answers nothing exactly when one of its reads does -/

section Forms
variable {v : Bool} {rd rs1 rs2 p : SlotNo} {addr : BufAddr} {s : State}

theorem slotOp1_eq_none {f : Poly → Poly} :
    slotOp1 f v rd rs1 s = none ↔ readSlots s.slots rs1.toNat (s.count v) = none := by
  unfold slotOp1
  cases readSlots s.slots rs1.toNat (s.count v) <;> simp

theorem slotOp2_eq_none {f : Poly → Poly → Poly} :
    slotOp2 f v rd rs1 rs2 s = none ↔
      readSlots s.slots rs1.toNat (s.count v) = none ∨ readSlots s.slots rs2.toNat (s.count v) = none := by
  unfold slotOp2
  cases readSlots s.slots rs1.toNat (s.count v) <;> cases readSlots s.slots rs2.toNat (s.count v) <;> simp

theorem slotOp3_eq_none {f : Poly → Poly → Poly → Poly} :
    slotOp3 f v rd rs1 rs2 s = none ↔
      readSlots s.slots rd.toNat (s.count v) = none ∨
        readSlots s.slots rs1.toNat (s.count v) = none ∨ readSlots s.slots rs2.toNat (s.count v) = none := by
  unfold slotOp3
  cases readSlots s.slots rd.toNat (s.count v) <;> cases readSlots s.slots rs1.toNat (s.count v) <;>
    cases readSlots s.slots rs2.toNat (s.count v) <;> simp

theorem dotOp_eq_none :
    dotOp rd rs1 rs2 s = none ↔
      readSlots s.slots rs1.toNat s.build.k.toNat = none ∨ readSlots s.slots rs2.toNat s.build.k.toNat = none := by
  unfold dotOp
  cases readSlots s.slots rs1.toNat s.build.k.toNat <;> cases readSlots s.slots rs2.toNat s.build.k.toNat <;> simp

theorem slotsToBuf_eq_none {f : Poly → List Byte} :
    slotsToBuf f v p addr s = none ↔ readSlots s.slots p.toNat (s.count v) = none := by
  unfold slotsToBuf
  cases readSlots s.slots p.toNat (s.count v) <;> simp

theorem bufToSlots_eq_none {f : List Byte → Poly} {len : Nat} :
    bufToSlots f len v p addr s = none ↔ readImages s.buf len addr.toNat (s.count v) = none := by
  unfold bufToSlots
  cases readImages s.buf len addr.toNat (s.count v) <;> simp

end Forms

/-! ## Every command -/

/-- A command's effect is undefined exactly when one of the slots or bytes it reads is unspecified (R21, R22). -/
theorem effectOf_eq_none {i : Instr} {s : State} :
    effectOf i s = none ↔
      SlotMissing s.slots (sourceSlots s.build.k i) ∨ ByteMissing s.buf (sourceBytes s.build.k i) := by
  cases i <;>
    simp [effectOf, scalarOp, sourceSlots, sourceBytes, slotOp1_eq_none, slotOp2_eq_none, slotOp3_eq_none, dotOp_eq_none,
      slotsToBuf_eq_none, bufToSlots_eq_none, readSlots_eq_none, readImages_eq_none, State.count]

/-! ## What a CMD write accepts (R252) -/

theorem issueCheck_eq_ok_iff_wellFormed {k : BitVec 4} {w : Word} {i : Instr} :
    issueCheck k w = .ok i ↔ decode w = .ok i ∧ i.wellFormed k = true := by
  rw [issueCheck_eq_ok, and_congr_right_iff]
  intro hdec
  simp [Instr.wellFormed, decode_widthLegal hdec]

/-- A CMD write that leaves the block busy, idle before it, put its word in flight, and the word passed every check
(R300). -/
theorem writeCmd_accepts {w : Word} {s : State} (hidle : s.busy = false) (hbusy : (writeCmd w s).busy = true) :
    (writeCmd w s).inFlight = some w ∧ ∃ i, issueCheck s.build.k w = .ok i := by
  obtain ⟨hb, -⟩ | ⟨-, i, hok, hw⟩ | ⟨-, e, -, hw⟩ := writeCmd_cases w s
  · simp [hidle] at hb
  · exact ⟨by rw [hw, accept_inFlight], i, hok⟩
  · rw [hw, raiseError_busy] at hbusy
    exact absurd (hidle.symm.trans hbusy) Bool.false_ne_true

/-- Settles O56: `run` names the two stops, and an effect is undefined exactly when a source is unspecified. -/
theorem unspecifiedSourceFaults : Obligations.UnspecifiedSourceFaults := by
  unfold Obligations.UnspecifiedSourceFaults
  refine ⟨fun i s => ⟨fun hwf => ⟨?_, fun _ => exec_fault, fun r hr => ?_⟩, fun hwf => ?_⟩,
    fun _ _ _ => issueCheck_eq_ok_iff_wellFormed, fun s w hidle hbusy => ?_⟩
  · have hstop := effectOf_eq_none (i := i) (s := s)
    rw [exec_eq_run, run_eq_fault]
    exact ⟨fun ⟨_, hnone, _⟩ => hstop.mp hnone, fun hmissing => ⟨hwf, hstop.mpr hmissing, rfl⟩⟩
  · rw [exec_eq_run, run_eq_refused, hwf] at hr
    exact nomatch hr.1
  · rw [exec_eq_run, run_eq_refused]
    exact ⟨hwf, rfl⟩
  · rw [hostWrite_register (r := .cmd) w s rfl rfl] at hbusy ⊢
    obtain ⟨hflight, i, hok⟩ := writeCmd_accepts hidle hbusy
    exact ⟨hflight, i, issueCheck_eq_ok_iff_wellFormed.mp hok⟩

end Sys2Proof.Machine
end

section
/-! SUPPORT. Which kinds of step change CMDCOUNT and the slots (spec/10_state.md R20, R23, R32). -/

namespace Sys2Proof.Machine

open Sys2Proof.Claims

/-! ## What a host access other than a soft reset keeps -/

/-- Of the registers only the one at 0x008 is CTRL (R26). -/
theorem registerAt_eq_ctrl {off : Nat} : registerAt off = some .ctrl ↔ off = 0x008 := by
  unfold registerAt
  split <;> simp_all

/-- Where CTRL is (R26, R61). -/
theorem regionAt_eq_ctrl {off : Nat} : regionAt off = .register .ctrl ↔ off = 0x008 := by
  constructor
  · intro h
    unfold regionAt at h
    split at h
    · split at h <;> cases h
      exact registerAt_eq_ctrl.mp ‹_›
    · repeat' split at h
      all_goals cases h
  · rintro rfl
    rfl

theorem writeRegister_keeps {r : Register} {v : Word} (h : r = .ctrl → v.getLsbD 31 = false) (s : State) :
    (writeRegister r v s).slots = s.slots ∧ (writeRegister r v s).cmdCount = s.cmdCount := by
  cases r with
  | ctrl => simp [writeRegister, writeCtrl_eq (h rfl)]
  | status => simp [writeRegister, writeStatus_eq]
  | cmd =>
    obtain ⟨-, hw⟩ | ⟨-, _, -, hw⟩ | ⟨-, _, -, hw⟩ := writeCmd_cases v s <;> simp [writeRegister, hw]
  | _ => exact ⟨rfl, rfl⟩

section Write
variable {off : Nat} {v : Word} (h : off = 0x008 → v.getLsbD 31 = false) (s : State)
include h

theorem hostWrite_cmdCount : (hostWrite off v s).cmdCount = s.cmdCount := by
  obtain ⟨-, hw⟩ | ⟨-, hw⟩ := hostWrite_cases off v s <;> rw [hw]
  · simp
  · cases hg : regionAt off with
    | register r => exact (writeRegister_keeps (fun hr => h (regionAt_eq_ctrl.mp (hr ▸ hg))) s).2
    | _ => rfl

/-- Only the POLY window's words are slots, and R72 blocks them while BUSY = 1. -/
theorem hostWrite_slots (hne : (hostWrite off v s).slots ≠ s.slots) :
    s.busy = false ∧ 0x4000 ≤ off ∧ off < 0x8000 := by
  obtain ⟨-, hw⟩ | ⟨hfree, hw⟩ := hostWrite_cases off v s <;> rw [hw] at hne
  · simp at hne
  · cases hg : regionAt off with
    | register r =>
      rw [hg] at hne
      exact absurd (writeRegister_keeps (fun hr => h (regionAt_eq_ctrl.mp (hr ▸ hg))) s).1 hne
    | polyWord r i =>
      obtain ⟨hlo, hhi, -, -⟩ := regionAt_eq_polyWord.mp hg
      exact ⟨by simpa [hg, blockedWhileBusy] using hfree, hlo, hhi⟩
    | bufWord w => exact absurd (by rw [hg]; rfl) hne
    | reserved => exact absurd (by rw [hg]; rfl) hne

end Write

theorem hostRead_keeps {off : Nat} {s t : State} (h : hostRead off s = .next t) :
    t.slots = s.slots ∧ t.cmdCount = s.cmdCount := by
  obtain ⟨-, rfl⟩ | ⟨-, v, -, rfl⟩ := hostRead_eq_next.mp h <;> simp

/-! ## CMDCOUNT and the slots over a step -/

/-- Settles O57: `complete` adds one, both resets write 0, and no access but a soft reset writes CMDCOUNT. -/
theorem cmdCountCountsCompletions : Obligations.CmdCountCountsCompletions := by
  unfold Obligations.CmdCountCountsCompletions
  intro s t h
  cases step_kind h with
  | completion i es hturn hexec =>
    refine ⟨fun _ => ?_, fun hr => absurd hturn (takesReset_not_takesCompletion hr), fun hc => absurd hturn hc⟩
    rw [exec_frame hexec]
    rfl
  | reset es hreset ht =>
    refine ⟨fun hc => absurd hc (takesReset_not_takesCompletion hreset), fun _ => ?_, fun _ hr => absurd hreset hr⟩
    obtain rfl | rfl := ht <;> rfl
  | idle es hc hr ht => exact ⟨fun h => absurd h hc, fun h => absurd h hr, fun _ _ => by rw [ht]⟩
  | read off es hc hr hread =>
    exact ⟨fun h => absurd h hc, fun h => absurd h hr, fun _ _ => (hostRead_keeps hread).2⟩
  | write x off v es hc hr _ _ _ hsoft ht =>
    exact ⟨fun h => absurd h hc, fun h => absurd h hr, fun _ _ => ht ▸ hostWrite_cmdCount hsoft _⟩

/-- Settles O58: of the steps that are neither a completion nor a reset only a write can change a slot. -/
theorem onlyTheseStepsChangeSlots : Obligations.OnlyTheseStepsChangeSlots := by
  unfold Obligations.OnlyTheseStepsChangeSlots
  intro s t h hne
  cases step_kind h with
  | completion i es hturn _ => exact .inl hturn
  | reset es hreset _ => exact .inr (.inl hreset)
  | idle es _ _ ht => exact absurd (by rw [ht]) hne
  | read off es _ _ hread => exact absurd (hostRead_keeps hread).1 hne
  | write x off v es _ _ hev hoff hdata hsoft ht =>
    obtain ⟨hidle, hlo, hhi⟩ := hostWrite_slots hsoft { s with events := es } (ht ▸ hne)
    exact .inr (.inr ⟨x, off, v, es, hev, hdata, hidle, (windowOffset_eq_some.mp hoff).2, hlo, hhi⟩)

end Sys2Proof.Machine
end

section
/-! SUPPORT. The bit stream of the byte images (spec/20_memory.md R66): which bit stands at each stream position, and
that packing and unpacking only cut the same stream into other widths. -/

namespace Sys2Proof.Machine

open Sys2Proof.Claims

/-! ## A number and its bits -/

theorem testBit_ofBits (bs : List Bool) (j : Nat) : (ofBits bs).testBit j = bs.getD j false := by
  induction bs generalizing j with
  | nil => simp [ofBits]
  | cons b bs ih =>
    cases j with
    | zero => cases b <;> simp [ofBits, Nat.testBit_zero, Nat.add_mod]
    | succ j =>
      have hhalf : ofBits (b :: bs) / 2 = ofBits bs := by
        have := b.toNat_lt
        simp only [ofBits]
        omega
      rw [Nat.testBit_succ, hhalf, ih, List.getD_cons_succ]

theorem ofBits_lt (bs : List Bool) : ofBits bs < 2 ^ bs.length := by
  induction bs with
  | nil => simp [ofBits]
  | cons b bs ih =>
    have := b.toNat_lt
    simp only [ofBits, List.length_cons, Nat.pow_succ]
    omega

/-! ## The stream, position by position -/

/-- Stream bit `p` is bit `p mod d` of value `p / d`; past the last value there are no ones (R66). -/
theorem getD_bitStream {d : Nat} (hd : 0 < d) (xs : List Nat) (p : Nat) :
    (bitStream d xs).getD p false = (xs.getD (p / d) 0).testBit (p % d) := by
  induction xs generalizing p with
  | nil => simp [bitStream]
  | cons x xs ih =>
    have hcons : bitStream d (x :: xs) = (List.range d).map x.testBit ++ bitStream d xs := rfl
    have hlen : ((List.range d).map x.testBit).length = d := by simp
    rw [hcons]
    by_cases hp : p < d
    · rw [List.getD_append _ _ _ _ (by rwa [hlen]), Nat.div_eq_of_lt hp, Nat.mod_eq_of_lt hp]
      simp [hp]
    · obtain ⟨q, rfl⟩ := Nat.exists_eq_add_of_le (Nat.le_of_not_lt hp)
      rw [List.getD_append_right _ _ _ _ (by omega), hlen, Nat.add_sub_cancel_left, ih, Nat.add_div_left _ hd,
        Nat.add_mod_left, List.getD_cons_succ]

/-- Value `i` taken from a stream is the `d` bits from position `d·i` on (R66). -/
theorem getElem?_takeValues {d n i : Nat} (hi : i < n) (bits : List Bool) :
    (takeValues d n bits)[i]? = some (ofBits ((bits.drop (d * i)).take d)) := by
  induction n generalizing i bits with
  | zero => omega
  | succ n ih =>
    cases i with
    | zero => simp [takeValues]
    | succ i =>
      rw [takeValues, List.getElem?_cons_succ, ih (by omega), List.drop_drop, Nat.mul_succ, Nat.add_comm d]

/-- The value that `d` bits of a stream from position `d·i` on give: below 2^d, with the stream's bits. -/
theorem ofBits_field (d i : Nat) (bits : List Bool) :
    ofBits ((bits.drop (d * i)).take d) < 2 ^ d ∧
      ∀ j < d, (ofBits ((bits.drop (d * i)).take d)).testBit j = bits.getD (d * i + j) false := by
  refine ⟨(ofBits_lt _).trans_le (Nat.pow_le_pow_right (by decide) (List.length_take_le d _)), fun j hj => ?_⟩
  rw [testBit_ofBits]
  simp [List.getElem?_take_of_lt hj]

/-! ## The two directions -/

theorem getD_map_toNat {n : Nat} (l : List (BitVec n)) (i : Nat) :
    (l.map BitVec.toNat).getD i 0 = (l.getD i 0).toNat :=
  List.getD_map l 0 BitVec.toNat

theorem getD_toList (t : Poly) (i : Nat) : t.toList.getD i 0 = get t i := by
  rw [List.getD_eq_getElem?_getD, Vector.getElem?_toList, Claims.get]

/-- Bit `p` of the packed image is stream bit `p`: bit `p mod d` of value `p / d` (R66). -/
theorem getLsbD_packBits {d p : Nat} (hd : 0 < d) (hp : p < 256 * d) (t : Poly) :
    ((packBits d t).getD (p / 8) 0).getLsbD (p % 8) = (get t (p / d)).getLsbD (p % d) := by
  have hbyte := getElem?_takeValues (d := 8) (n := 32 * d) (i := p / 8) (by omega)
    (bitStream d (t.toList.map BitVec.toNat))
  have hbit := (ofBits_field 8 (p / 8) (bitStream d (t.toList.map BitVec.toNat))).2 (p % 8) (by omega)
  rw [Nat.div_add_mod, getD_bitStream hd, getD_map_toNat, getD_toList, BitVec.testBit_toNat] at hbit
  rw [packBits, List.getD_eq_getElem?_getD, List.getElem?_map, hbyte, Option.map_some, Option.getD_some,
    BitVec.getLsbD_ofNat, hbit]
  simp [show p % 8 < 8 by omega]

/-- Value `i` of an unpacked image is below 2^d and its bit `j` is stream bit `d·i + j` (R66). -/
theorem get_unpackBits {d i : Nat} (hd : d ≤ 12) (hi : i < 256) (b : List Byte) :
    (get (unpackBits d b) i).toNat < 2 ^ d ∧
      ∀ j < d, (get (unpackBits d b) i).getLsbD j = (b.getD ((d * i + j) / 8) 0).getLsbD ((d * i + j) % 8) := by
  obtain ⟨hlt, hbits⟩ := ofBits_field d i (bitStream 8 (b.map BitVec.toNat))
  have hget : get (unpackBits d b) i =
      BitVec.ofNat 16 (ofBits (((bitStream 8 (b.map BitVec.toNat)).drop (d * i)).take d)) := by
    rw [Claims.get, unpackBits, getElem?_ofList (by simp [takeValues_length]), List.getElem?_map,
      getElem?_takeValues hi, Option.map_some, Option.getD_some]
  rw [hget]
  refine ⟨(Nat.mod_le _ _).trans_lt hlt, fun j hj => ?_⟩
  rw [BitVec.getLsbD_ofNat, hbits j hj, getD_bitStream (by decide)]
  rw [getD_map_toNat, BitVec.testBit_toNat]
  simp [show j < 16 by omega]

/-- A coefficient below 2^d has no ones from bit `d` up. -/
theorem getLsbD_of_toNat_lt {d j : Nat} {x : Coef} (hx : x.toNat < 2 ^ d) (hj : d ≤ j) : x.getLsbD j = false :=
  Nat.testBit_lt_two_pow (hx.trans_le (Nat.pow_le_pow_right (by decide) hj))

/-- Two polynomials with the same coefficients are equal. -/
theorem poly_ext {p q : Poly} (h : ∀ i < 256, get p i = get q i) : p = q := by
  ext i hi
  have := h i hi
  simp_all [Claims.get]

/-- Settles O31: each direction reads the stream off position by position, and a value below 2^d is its low `d` bits. -/
theorem bitStreamPacking : Obligations.BitStreamPacking := by
  unfold Obligations.BitStreamPacking
  intro d hd1 hd12
  have hpack : ∀ t : Poly, ∀ i < 256, ∀ j < d,
      ((packBits d t).getD ((d * i + j) / 8) 0).getLsbD ((d * i + j) % 8) = (get t i).getLsbD j := by
    intro t i hi j hj
    have hp : d * i + j < 256 * d := by nlinarith
    rw [getLsbD_packBits hd1 hp, Nat.mul_add_div hd1, Nat.mul_add_mod, Nat.div_eq_of_lt hj, Nat.mod_eq_of_lt hj,
      Nat.add_zero]
  refine ⟨fun t => ⟨packBits_length d t, hpack t⟩, fun b _ i hi => get_unpackBits hd12 hi b, fun t ht => ?_⟩
  refine poly_ext fun i hi => BitVec.eq_of_getLsbD_eq fun j _ => ?_
  obtain ⟨hlt, hbits⟩ := get_unpackBits hd12 hi (packBits d t)
  by_cases hj : j < d
  · rw [hbits j hj, hpack t i hi j hj]
  · rw [getLsbD_of_toNat_lt hlt (by omega), getLsbD_of_toNat_lt (ht i hi) (by omega)]

end Sys2Proof.Machine
end

section
/-! SUPPORT. The register window (spec/20_memory.md R60 to R72): which transactions have a step, the words of the two
data windows, and what R72 blocks while BUSY = 1. -/

namespace Sys2Proof.Machine

open Sys2Proof.Claims

/-! ## Transactions (R60, R62) -/

theorem windowOffset_eq_none {base addr : BitVec 32} :
    windowOffset base addr = none ↔ ∀ off : Nat, off < 0x8000 → addr ≠ base + BitVec.ofNat 32 off := by
  simp only [Option.eq_none_iff_forall_ne_some, ne_eq, windowOffset_eq_some, not_and]

theorem transact_outside {t : Transaction} {s : State} (h : windowOffset s.build.base t.addr = none) :
    transact t s = .fault .outsideWindow := by
  simp [transact, h]

section Transact
variable {t : Transaction} {s : State} {off : Nat} (hoff : windowOffset s.build.base t.addr = some off)
include hoff

theorem transact_alignedWord (h : t.size = .word ∧ off % 4 = 0) :
    transact t s = match t.data with
      | none => hostRead off s
      | some v => .next (hostWrite off v s) := by
  cases hdata : t.data <;> simp [transact, hoff, h, hdata]

theorem transact_unsupported (h : ¬(t.size = .word ∧ off % 4 = 0)) :
    transact t s = .refused .unsupportedAccess := by
  simp only [transact, hoff]
  exact if_pos (not_and_or.mp h)

theorem transact_eq_refused {r : Refusal} :
    transact t s = .refused r ↔ r = .unsupportedAccess ∧ ¬(t.size = .word ∧ off % 4 = 0) := by
  by_cases h : t.size = .word ∧ off % 4 = 0
  · rw [transact_alignedWord hoff h]
    cases t.data <;> simp [h, hostRead_ne_refused]
  · rw [transact_unsupported hoff h, Host.Outcome.refused.injEq, eq_comm, and_iff_left h]

end Transact

/-- Settles O42: an address of the window has one offset, and the size and that offset decide. -/
theorem alignedWordsOnly : Obligations.AlignedWordsOnly := by
  unfold Obligations.AlignedWordsOnly
  refine fun s t => ⟨fun off hlt haddr => ?_, fun h => transact_outside (windowOffset_eq_none.mpr h)⟩
  have hoff := windowOffset_eq_some.mpr ⟨hlt, haddr⟩
  exact ⟨fun hsize halign => transact_alignedWord hoff ⟨hsize, halign⟩, transact_unsupported hoff,
    fun _ => (transact_eq_refused hoff).mp⟩

/-! ## The BUF window (R63) -/

/-- A read of a place without a value, not blocked by R72, is the fault of R21. -/
theorem hostRead_of_free_none {off : Nat} {s : State}
    (h : (s.busy && blockedWhileBusy (regionAt off)) = false) (hv : regionValue (regionAt off) s = none) :
    hostRead off s = .fault .readUnspecified :=
  hostRead_eq_fault.mpr ⟨h, hv, rfl⟩

theorem regionAt_bufWord {w : Nat} (hw : w < 1024) : regionAt (0x1000 + 4 * w) = .bufWord w :=
  regionAt_eq_bufWord.mpr (by omega)

theorem bufWordValue_of_bytesHold {s : State} {w : Nat} {b : Nat → Byte} (h : BytesHold s (4 * w) 4 b) :
    bufWordValue s.buf w = some (b 3 ++ b 2 ++ b 1 ++ b 0) := by
  have h0 : Memory.read s.buf (4 * w) = some (b 0) := h 0 (by decide)
  simp [bufWordValue, h0, h 1, h 2, h 3]

theorem bufWordValue_eq_none {m : Memory} {w : Nat} :
    bufWordValue m w = none ↔ ∃ i < 4, Memory.read m (4 * w + i) = none := by
  simp only [Nat.exists_lt_succ_right, Nat.not_lt_zero, false_and, exists_false, false_or, Nat.add_zero]
  unfold bufWordValue
  cases Memory.read m (4 * w) <;> cases Memory.read m (4 * w + 1) <;> cases Memory.read m (4 * w + 2) <;>
    cases Memory.read m (4 * w + 3) <;> simp

/-- What a byte reads as after a write of a BUF window word: byte `i` of the word in byte `4w + i` (R63). -/
theorem read_writeBufWord (w : Nat) (v : Word) (s : State) (x : Nat) :
    Memory.read (writeBufWord w v s).buf x =
      if 4 * w ≤ x ∧ x < 4 * w + 4 then some (v.extractLsb' (8 * (x - 4 * w)) 8) else Memory.read s.buf x := by
  rw [writeBufWord, Memory.read_writeBytes]
  simp only [List.length_cons, List.length_nil, Nat.zero_add, Nat.reduceAdd]
  by_cases h : 4 * w ≤ x ∧ x < 4 * w + 4
  · obtain ⟨i, rfl⟩ := Nat.exists_eq_add_of_le h.1
    have hi : i < 4 := by omega
    rw [if_pos h, if_pos h, Nat.add_sub_cancel_left]
    interval_cases i <;> rfl
  · rw [if_neg h, if_neg h]

/-- Settles O43: with BUSY = 0 an access is the BUF window's own, and a write is a write of four bytes. -/
theorem bufWindowLittleEndian : Obligations.BufWindowLittleEndian := by
  unfold Obligations.BufWindowLittleEndian
  intro s w hw hidle
  have hreg := regionAt_bufWord hw
  have hfree := idle_free hidle (0x1000 + 4 * w)
  refine ⟨fun b hb => hostRead_of_free hfree ?_, fun hmissing => hostRead_of_free_none hfree ?_, fun v => ?_⟩
  · rw [hreg, regionValue, bufWordValue_of_bytesHold hb]
  · rw [hreg, regionValue, bufWordValue_eq_none.mpr hmissing]
  · rw [hostWrite_of_free hfree, hreg, writeRegion]
    refine ⟨rfl, fun i hi => ?_, fun y hy => ?_⟩
    · rw [read_writeBufWord, if_pos (by omega), Nat.add_sub_cancel_left]
    · rw [read_writeBufWord, if_neg hy]

/-! ## The POLY window (R64) -/

theorem regionAt_polyWord {r i : Nat} (hr : r < 32) (hi : i < 128) :
    regionAt (0x4000 + 512 * r + 4 * i) = .polyWord r i :=
  regionAt_eq_polyWord.mpr (by omega)

theorem polyWordValue_eq_none {f : SlotFile} {r i : Nat} :
    polyWordValue f r i = none ↔
      SlotFile.readCoef f r (2 * i) = none ∨ SlotFile.readCoef f r (2 * i + 1) = none := by
  unfold polyWordValue
  cases SlotFile.readCoef f r (2 * i) <;> cases SlotFile.readCoef f r (2 * i + 1) <;> simp

/-- What a coefficient reads as after a write of a POLY window word (R64). -/
theorem readCoef_writePolyWord {r i : Nat} (hr : r < 32) (hi : i < 128) (v : Word) (s : State) (x y : Nat) :
    SlotFile.readCoef (writePolyWord r i v s).slots x y =
      if x = r ∧ y = 2 * i then some (v.extractLsb' 0 16)
      else if x = r ∧ y = 2 * i + 1 then some (v.extractLsb' 16 16)
      else SlotFile.readCoef s.slots x y := by
  rw [writePolyWord, SlotFile.readCoef_writeCoef _ r _ _ hr (by omega),
    SlotFile.readCoef_writeCoef _ r _ _ hr (by omega)]
  split_ifs
  · omega
  all_goals rfl

/-- Settles O44: with BUSY = 0 an access is the POLY window's own, and a write is two writes of a coefficient. -/
theorem polyWindowTwoCoefficients : Obligations.PolyWindowTwoCoefficients := by
  unfold Obligations.PolyWindowTwoCoefficients
  intro s r i hr hi128 hidle
  have hreg := regionAt_polyWord hr hi128
  have hfree := idle_free hidle (0x4000 + 512 * r + 4 * i)
  refine ⟨fun lo hi hlo hhi => hostRead_of_free hfree ?_, fun hmissing => hostRead_of_free_none hfree ?_, fun v => ?_⟩
  · rw [hreg, regionValue, polyWordValue, hlo, hhi]
  · rw [hreg, regionValue, polyWordValue_eq_none.mpr hmissing]
  · rw [hostWrite_of_free hfree, hreg, writeRegion]
    exact ⟨rfl, readCoef_writePolyWord hr hi128 v s⟩

/-! ## What R72 blocks -/

/-- The words of the control region that R72 blocks are SA, SB and SR, at 0x018 to 0x023 (R26). -/
theorem blocked_controlWord {off : Nat} (hlt : off < 0x1000) (halign : off % 4 = 0) :
    blockedWhileBusy (regionAt off) = true ↔ 0x018 ≤ off ∧ off < 0x024 := by
  by_cases hlast : 0x028 ≤ off
  · rw [regionAt_eq_reserved (.inl ⟨hlast, hlt⟩)]
    simp only [blockedWhileBusy, Bool.false_eq_true, false_iff]
    omega
  · obtain ⟨k, rfl⟩ := Nat.dvd_of_mod_eq_zero halign
    have hk : k < 10 := by omega
    interval_cases k <;> decide

/-- R72's ranges of offsets are the words of the three scalar registers and of the two data windows. -/
theorem blocked_iff {off : Nat} (h : wordOffset off) :
    blockedWhileBusy (regionAt off) = true ↔ blockedOffset off := by
  obtain ⟨hlt, halign⟩ := h
  unfold blockedOffset
  by_cases hctl : off < 0x1000
  · rw [blocked_controlWord hctl halign]
    omega
  by_cases hbuf : off < 0x2000
  · rw [regionAt_eq_bufWord.mpr ⟨by omega, hbuf, rfl⟩]
    simp only [blockedWhileBusy, true_iff]
    omega
  by_cases hres : off < 0x4000
  · rw [regionAt_eq_reserved (by omega)]
    simp only [blockedWhileBusy, Bool.false_eq_true, false_iff]
    omega
  · rw [regionAt_eq_polyWord.mpr ⟨by omega, hlt, rfl, rfl⟩]
    simp only [blockedWhileBusy, true_iff]
    omega

/-- Everything outside the two data windows has a value (R21, R61). -/
theorem regionValue_of_not_blocked {g : Region} (h : blockedWhileBusy g = false) (s : State) :
    ∃ x, regionValue g s = some x := by
  cases g with
  | register r => exact ⟨_, rfl⟩
  | bufWord w => exact nomatch h
  | polyWord r i => exact nomatch h
  | reserved => exact ⟨_, rfl⟩

/-- The ERRINFO of error 8 as a number: the direction in bit 31 and the offset below it (R31). -/
theorem accessInfo_eq {off : Nat} (h : off < 0x8000) (write : Bool) :
    accessInfo write off = BitVec.ofNat 32 (2 ^ 31 * write.toNat + off) := by
  apply BitVec.eq_of_toNat_eq
  rw [accessInfo, BitVec.toNat_append, ← Nat.shiftLeft_add_eq_or_of_lt (BitVec.isLt _), BitVec.toNat_append]
  cases write <;> simp <;> omega

/-- Settles O45: R72's offsets are exactly the blocked regions, and every other region has a value to read. The plain
name is the model's function. -/
theorem blockedWhileBusy_holds : Obligations.BlockedWhileBusy := by
  unfold Obligations.BlockedWhileBusy
  intro s off hbusy hword
  refine ⟨fun hblocked => ?_, fun hopen => ?_⟩
  · have hblock : (s.busy && blockedWhileBusy (regionAt off)) = true := by
      rw [hbusy, (blocked_iff hword).mpr hblocked]
      rfl
    refine ⟨?_, fun v => ?_⟩
    · simpa [accessInfo_eq hword.1] using hostRead_eq_next.mpr (.inl ⟨hblock, rfl⟩)
    · rw [hostWrite, if_pos hblock, accessInfo_eq hword.1]
      rfl
  · have hfree : blockedWhileBusy (regionAt off) = false := by
      rw [← Bool.not_eq_true, blocked_iff hword]
      exact hopen
    have hnot : (s.busy && blockedWhileBusy (regionAt off)) = false := by rw [hfree, Bool.and_false]
    obtain ⟨x, hx⟩ := regionValue_of_not_blocked hfree s
    exact ⟨⟨x, hostRead_of_free hnot hx⟩, hostWrite_of_free hnot⟩

end Sys2Proof.Machine
end

section
/-! SUPPORT. The encoding of command words (spec/30_encoding.md R80 to R89): the fields of the word of each format, the
round trip between `decode` and `encode`, and the match and mask table of R87. -/

namespace Sys2Proof

open Sys2Proof.Claims

/-! ## A word and its fields -/

theorem extractLsb'_eq_append_iff {k n m s : Nat} {w : BitVec k} {x : BitVec n} {y : BitVec m} :
    w.extractLsb' s (n + m) = x ++ y ↔ w.extractLsb' (s + m) n = x ∧ w.extractLsb' s m = y := by
  rw [← BitVec.extractLsb'_append_extractLsb'_eq_extractLsb' rfl]
  refine ⟨fun h => ⟨?_, ?_⟩, fun ⟨hx, hy⟩ => by rw [hx, hy]⟩
  · simpa only [BitVec.extractLsb'_append_eq_left] using congrArg (BitVec.extractLsb' m n) h
  · simpa only [BitVec.extractLsb'_append_eq_right] using congrArg (BitVec.extractLsb' 0 m) h

theorem eq_append_iff {n m : Nat} {w : BitVec (n + m)} {x : BitVec n} {y : BitVec m} :
    w = x ++ y ↔ w.extractLsb' (0 + m) n = x ∧ w.extractLsb' 0 m = y := by
  rw [← extractLsb'_eq_append_iff, BitVec.extractLsb'_eq_self]

theorem extractLsb'_eq_ofBool {w : Word} {v : Bool} : w.extractLsb' 25 1 = BitVec.ofBool v ↔ vField w = v := by
  have hbit : w.extractLsb' 25 1 = BitVec.ofBool (vField w) := by
    ext i hi
    simp [vField, Nat.lt_one_iff.mp hi, BitVec.getLsbD_eq_getElem]
  rw [hbit]
  cases vField w <;> cases v <;> decide

/-- Masking a word with the ones of one field says what that field is, and nothing about the others. -/
theorem and_fieldMask_eq {w : Word} (s n : Nat) (h : s + n ≤ 32) {x : BitVec n} :
    w &&& (BitVec.allOnes n).setWidth 32 <<< s = x.setWidth 32 <<< s ↔ w.extractLsb' s n = x := by
  simp only [BitVec.eq_of_getLsbD_eq_iff, BitVec.getLsbD_and, BitVec.getLsbD_shiftLeft, BitVec.getLsbD_setWidth,
    BitVec.getLsbD_allOnes, BitVec.getLsbD_extractLsb']
  constructor
  · intro hw i hi
    simpa [show s + i < 32 by omega, show i < 32 by omega, hi] using hw (s + i) (by omega)
  · intro hx i hi
    have := hx (i - s)
    grind

/-! ## The reserved bits of each format (R81 to R84) -/

theorem reserved_s {w : Word} : w &&& reservedMask .s = 0 ↔ w.extractLsb' 0 25 = 0 :=
  and_fieldMask_eq (x := 0) 0 25 (by decide)

theorem reserved_p3 {w : Word} : w &&& reservedMask .p3 = 0 ↔ w.extractLsb' 0 10 = 0 :=
  and_fieldMask_eq (x := 0) 0 10 (by decide)

theorem reserved_p2 {w : Word} : w &&& reservedMask .p2 = 0 ↔ w.extractLsb' 0 15 = 0 :=
  and_fieldMask_eq (x := 0) 0 15 (by decide)

theorem reserved_b {w : Word} : w &&& reservedMask .b = 0 ↔ w.extractLsb' 12 4 = 0 :=
  and_fieldMask_eq (x := 0) 12 4 (by decide)

@[simp] theorem reservedMask_bd : reservedMask .bd = reservedMask .b := rfl

/-! ## A word is the word of its fields when its reserved bits are 0 -/

theorem eq_encodeS {w : Word} {opc : BitVec 6} :
    w = encodeS opc ↔ opcField w = opc ∧ vField w = false ∧ w &&& reservedMask .s = 0 := by
  refine (eq_append_iff (n := 6 + 1) (m := 25)).trans ?_
  simp only [extractLsb'_eq_append_iff, ← extractLsb'_eq_ofBool, reserved_s, and_assoc]
  rfl

theorem eq_encodeP3 {w : Word} {opc : BitVec 6} {v : Bool} {rd rs1 rs2 : SlotNo} :
    w = encodeP3 opc v rd rs1 rs2 ↔
      opcField w = opc ∧ vField w = v ∧ rdField w = rd ∧ rs1Field w = rs1 ∧ rs2Field w = rs2 ∧
        w &&& reservedMask .p3 = 0 := by
  refine (eq_append_iff (n := 6 + 1 + 5 + 5 + 5) (m := 10)).trans ?_
  simp only [extractLsb'_eq_append_iff, ← extractLsb'_eq_ofBool, reserved_p3, and_assoc]
  rfl

theorem eq_encodeP2 {w : Word} {opc : BitVec 6} {v : Bool} {rd rs1 : SlotNo} :
    w = encodeP2 opc v rd rs1 ↔
      opcField w = opc ∧ vField w = v ∧ rdField w = rd ∧ rs1Field w = rs1 ∧ w &&& reservedMask .p2 = 0 := by
  refine (eq_append_iff (n := 6 + 1 + 5 + 5) (m := 15)).trans ?_
  simp only [extractLsb'_eq_append_iff, ← extractLsb'_eq_ofBool, reserved_p2, and_assoc]
  rfl

theorem eq_encodeB {w : Word} {opc : BitVec 6} {v : Bool} {p : SlotNo} {d : Width} {addr : BufAddr} :
    w = encodeB opc v p d addr ↔
      opcField w = opc ∧ vField w = v ∧ rdField w = p ∧ dField w = d ∧ w &&& reservedMask .b = 0 ∧
        addrField w = addr := by
  refine (eq_append_iff (n := 6 + 1 + 5 + 4 + 4) (m := 12)).trans ?_
  simp only [extractLsb'_eq_append_iff, ← extractLsb'_eq_ofBool, reserved_b, and_assoc]
  rfl

section Fields
variable (opc : BitVec 6) (v : Bool) (rd rs1 rs2 : SlotNo) (d : Width) (addr : BufAddr)

@[simp] theorem encodeS_fields :
    opcField (encodeS opc) = opc ∧ vField (encodeS opc) = false ∧ encodeS opc &&& reservedMask .s = 0 :=
  eq_encodeS.mp rfl

@[simp] theorem encodeP3_fields :
    opcField (encodeP3 opc v rd rs1 rs2) = opc ∧ vField (encodeP3 opc v rd rs1 rs2) = v ∧
      rdField (encodeP3 opc v rd rs1 rs2) = rd ∧ rs1Field (encodeP3 opc v rd rs1 rs2) = rs1 ∧
      rs2Field (encodeP3 opc v rd rs1 rs2) = rs2 ∧ encodeP3 opc v rd rs1 rs2 &&& reservedMask .p3 = 0 :=
  eq_encodeP3.mp rfl

@[simp] theorem encodeP2_fields :
    opcField (encodeP2 opc v rd rs1) = opc ∧ vField (encodeP2 opc v rd rs1) = v ∧
      rdField (encodeP2 opc v rd rs1) = rd ∧ rs1Field (encodeP2 opc v rd rs1) = rs1 ∧
      encodeP2 opc v rd rs1 &&& reservedMask .p2 = 0 :=
  eq_encodeP2.mp rfl

@[simp] theorem encodeB_fields :
    opcField (encodeB opc v rd d addr) = opc ∧ vField (encodeB opc v rd d addr) = v ∧
      rdField (encodeB opc v rd d addr) = rd ∧ dField (encodeB opc v rd d addr) = d ∧
      encodeB opc v rd d addr &&& reservedMask .b = 0 ∧ addrField (encodeB opc v rd d addr) = addr :=
  eq_encodeB.mp rfl

end Fields

/-! ## The round trip (R80 to R86, R89) -/

/-- Every opcode with a format has a command. -/
theorem assemble_isSome (w : Word) : (assemble w).isSome = (formatOf (opcField w)).isSome := by
  unfold assemble formatOf
  split <;> simp_all

/-- A word decodes when its opcode is assigned and it passes the checks 2 to 4 of R252. -/
theorem decode_eq_ok {w : Word} {i : Instr} :
    decode w = .ok i ↔ ∃ f, formatOf (opcField w) = some f ∧ assemble w = some i ∧
      (vField w = true → vLegal (opcField w) = true) ∧ w &&& reservedMask f = 0 ∧ dLegal f (dField w) = true := by
  unfold decode
  split
  next f j hf hj => split_ifs <;> simp_all
  next hnone =>
    simp only [reduceCtorEq, false_iff, not_exists]
    exact fun f ⟨hf, hi, _⟩ => hnone f i hf hi

theorem decode_encode {i : Instr} (h : widthLegal i = true) : decode (encode i) = .ok i := by
  rw [decode_eq_ok]
  cases i with
  | compress v p d addr => simpa [encode, formatOf, assemble, vLegal, widthLegal] using h
  | decompress v p d addr => simpa [encode, formatOf, assemble, vLegal, widthLegal] using h
  | _ => simp [encode, formatOf, assemble, vLegal, dLegal]

/-- The converse of `decode_encode`: the command read off the fields of a word has no other legal word. -/
theorem encode_of_decode {w : Word} {i : Instr} (h : decode w = .ok i) : encode i = w := by
  obtain ⟨f, hformat, hi, hv, hreserved, hd⟩ := decode_eq_ok.mp h
  revert hi
  unfold assemble
  split
  all_goals rintro ⟨⟩
  all_goals next hopc =>
    obtain ⟨-, hopc⟩ := BitVec.toNat_eq_nat.mp hopc
    obtain rfl : _ = f := by simpa [hopc, formatOf] using hformat
    simp_all [eq_comm (b := w), encode, eq_encodeS, eq_encodeP3, eq_encodeP2, eq_encodeB, vLegal, dLegal]

/-- Settles O1: the fields of the word of a command are its operands, and the word passes the decoder's checks. -/
theorem decodeEncodeAgree : Obligations.DecodeEncodeAgree := by
  unfold Obligations.DecodeEncodeAgree
  exact fun i => decode_encode

/-- Settles O2: a word that decodes is the encoder's word of its command. -/
theorem legalWordsHaveOneMeaning : Obligations.LegalWordsHaveOneMeaning := by
  unfold Obligations.LegalWordsHaveOneMeaning
  refine ⟨fun w i => encode_of_decode, fun w w' i h h' => ?_⟩
  rw [← encode_of_decode h, ← encode_of_decode h']

/-! ## The match and mask table (R87) -/

/-- The bits a word of an opcode must have 0: V where V = 1 is illegal, the reserved bits, and D in Format B. -/
def zeroMask (opc : BitVec 6) (f : Format) : Word :=
  (if vLegal opc then 0 else 0x02000000) ||| (reservedMask f ||| if f = .b then 0x000F0000 else 0)

/-- The row of R87 for an opcode of a format: its mask is the opcode's bits and `zeroMask`. -/
def rowOf (opc : BitVec 6) (f : Format) : Nat × Word := (opc.toNat, 0xFC000000#32 ||| zeroMask opc f)

theorem mem_maskRows {row : Nat × Word} : row ∈ maskRows ↔ ∃ opc f, formatOf opc = some f ∧ rowOf opc f = row := by
  have hrows : ∀ r ∈ maskRows, ∃ opc : BitVec 6, (formatOf opc).map (rowOf opc) = some r := by decide
  have hassigned : ∀ opc : BitVec 6, ∀ r ∈ (formatOf opc).map (rowOf opc), r ∈ maskRows := by decide
  constructor
  · intro hrow
    simpa using hrows row hrow
  · rintro ⟨opc, f, hf, rfl⟩
    exact hassigned opc _ (by simp [hf])

theorem and_or_eq_iff {n : Nat} {w a b c : BitVec n} (hc : c &&& a = c) (hab : a &&& b = 0) :
    w &&& (a ||| b) = c ↔ w &&& a = c ∧ w &&& b = 0 := by
  simp only [BitVec.eq_of_getLsbD_eq_iff] at *
  grind

theorem and_vMask_eq_zero {w : Word} : w &&& 0x02000000#32 = 0 ↔ vField w = false :=
  (and_fieldMask_eq (x := 0) 25 1 (by decide)).trans (extractLsb'_eq_ofBool (v := false))

theorem and_dMask_eq_zero {w : Word} : w &&& 0x000F0000#32 = 0 ↔ dField w = 0 :=
  and_fieldMask_eq (x := 0) 16 4 (by decide)

theorem and_opcMask_eq {w : Word} {opc : BitVec 6} :
    w &&& 0xFC000000#32 = BitVec.ofNat 32 (opc.toNat * 2 ^ 26) ↔ opcField w = opc := by
  have hshift : BitVec.ofNat 32 (opc.toNat * 2 ^ 26) = opc.setWidth 32 <<< 26 := by
    revert opc
    decide
  rw [hshift]
  exact and_fieldMask_eq 26 6 (by decide)

theorem and_zeroMask_eq_zero {w : Word} {opc : BitVec 6} {f : Format} :
    w &&& zeroMask opc f = 0 ↔
      (vField w = true → vLegal opc = true) ∧ w &&& reservedMask f = 0 ∧ (f = .b → dField w = 0) := by
  have hv : w &&& (if vLegal opc then 0 else 0x02000000) = 0 ↔ (vField w = true → vLegal opc = true) := by
    cases vLegal opc <;> simp [← and_vMask_eq_zero]
  have hd : w &&& (if f = .b then 0x000F0000 else 0) = 0 ↔ (f = .b → dField w = 0) := by
    rw [← and_dMask_eq_zero]
    split_ifs <;> simp_all
  rw [zeroMask, BitVec.and_or_distrib_left, BitVec.and_or_distrib_left]
  exact BitVec.or_eq_zero_iff.trans (and_congr hv (BitVec.or_eq_zero_iff.trans (and_congr_right' hd)))

theorem and_rowMask_eq {w : Word} {opc : BitVec 6} {f : Format} :
    w &&& (rowOf opc f).2 = BitVec.ofNat 32 (opc.toNat * 2 ^ 26) ↔ opcField w = opc ∧ w &&& zeroMask opc f = 0 := by
  have hmatch : BitVec.ofNat 32 (opc.toNat * 2 ^ 26) &&& 0xFC000000#32 = BitVec.ofNat 32 (opc.toNat * 2 ^ 26) := by
    revert opc
    decide
  have hdisjoint : 0xFC000000#32 &&& zeroMask opc f = 0 := by
    cases f <;> unfold zeroMask <;> cases vLegal opc <;> decide
  rw [rowOf, and_or_eq_iff hmatch hdisjoint, and_opcMask_eq]

theorem formatOf_eq_bd {opc : BitVec 6} : formatOf opc = some .bd ↔ opc.toNat = 0x1A ∨ opc.toNat = 0x1B := by
  revert opc
  decide

theorem bits_eq_toNat (w : Word) (lo n : Nat) : bits w lo n = (w.extractLsb' lo n).toNat := by
  rw [bits, BitVec.extractLsb'_toNat, Nat.shiftRight_eq_div_pow]

/-- A word matches an opcode's row when it has that opcode and passes the checks 2 to 4 of R252. -/
theorem matchesRow_rowOf {w : Word} {opc : BitVec 6} {f : Format} (hf : formatOf opc = some f) :
    matchesRow w (rowOf opc f) ↔ opcField w = opc ∧ (vField w = true → vLegal opc = true) ∧
      w &&& reservedMask f = 0 ∧ dLegal f (dField w) = true := by
  have hwidth : ((opc.toNat = 0x1A ∨ opc.toNat = 0x1B) → LegalWidth (bits w 16 4)) ↔
      (f = .bd → 1 ≤ (dField w).toNat ∧ (dField w).toNat ≤ 11) := by
    rw [← formatOf_eq_bd, hf, Option.some.injEq, bits_eq_toNat]
    rfl
  refine (and_congr (and_rowMask_eq.trans (and_congr_right' and_zeroMask_eq_zero)) hwidth).trans ?_
  cases f <;> simp [dLegal, and_assoc]

theorem decode_isOk_iff {w : Word} :
    (∃ i, decode w = .ok i) ↔ ∃ f, formatOf (opcField w) = some f ∧ matchesRow w (rowOf (opcField w) f) := by
  simp only [decode_eq_ok]
  rw [exists_comm]
  refine exists_congr fun f => ?_
  rw [exists_and_left]
  refine and_congr_right fun hf => ?_
  rw [exists_and_right, ← Option.isSome_iff_exists, assemble_isSome, matchesRow_rowOf hf, hf, Option.isSome_some]
  simp

/-- Settles O3: the rows are those of the assigned opcodes, and the row of its own opcode is the one a word matches. -/
theorem matchAndMaskTable : Obligations.MatchAndMaskTable := by
  unfold Obligations.MatchAndMaskTable
  refine ⟨fun w row hrow hmatch => ?_, fun w i hi => ?_⟩
  · obtain ⟨opc, f, hf, rfl⟩ := mem_maskRows.mp hrow
    obtain ⟨rfl, -⟩ := (matchesRow_rowOf hf).mp hmatch
    obtain ⟨i, hi⟩ := decode_isOk_iff.mpr ⟨f, hf, hmatch⟩
    refine ⟨i, hi, ?_⟩
    rw [encode_of_decode hi, bits_eq_toNat]
    rfl
  · obtain ⟨f, hf, hmatch⟩ := decode_isOk_iff.mp ⟨i, hi⟩
    exact ⟨_, mem_maskRows.mpr ⟨_, f, hf, rfl⟩, hmatch⟩

/-- Settles O4: each word is the encoder's word of its command. -/
theorem specWordsDecode : Obligations.SpecWordsDecode := by
  unfold Obligations.SpecWordsDecode
  exact ⟨decode_encode (i := .compress true 4 10 0x100) rfl, decode_encode (i := .ntt false 1 0) rfl,
    decode_encode (i := .pvdot 10 0 3) rfl, decode_encode (i := .cbd2 false 5 0x200) rfl,
    decode_encode (i := .padd true 1 0 0) rfl, decode_encode (i := .decompress false 6 1 0) rfl,
    decode_encode (i := .fqmul) rfl, decode_encode (i := .nop) rfl⟩

end Sys2Proof
end

section
/-! SUPPORT. The reduction functions (spec/40_reduction.md R120 to R123) as equations and congruences on integers, and the
scalar commands that expose them (R124 to R128). -/

namespace Sys2Proof.Machine

/-! ## The 16-bit wrap (R12) -/

theorem le_toInt_coef (a : Coef) : -32768 ≤ a.toInt := a.le_toInt

theorem toInt_coef_le (a : Coef) : a.toInt ≤ 32767 := a.toInt_le

theorem abs_toInt_coef_le (a : Coef) : |a.toInt| ≤ 32768 :=
  abs_le.mpr ⟨le_toInt_coef a, (toInt_coef_le a).trans (by decide)⟩

theorem toInt_s16_emod (v : Int) : (s16 v).toInt % 65536 = v % 65536 := by
  rw [s16, BitVec.toInt_ofInt]
  exact Int.bmod_emod

/-- `s16` is exact on what 16 bits hold. -/
theorem toInt_s16 {v : Int} (hlo : -32768 ≤ v) (hhi : v ≤ 32767) : (s16 v).toInt = v :=
  BitVec.toInt_ofInt_eq_self (by decide) hlo (Int.lt_add_one_of_le hhi)

/-! ## MONT (R120) -/

/-- The exact quotient that MONT narrows to 16 bits (R120). -/
def montQuotient (a : Int) : Int := (a - (s16 (a * 62209)).toInt * 3329) / 2 ^ 16

theorem mont_eq_s16 (a : Int) : mont a = s16 (montQuotient a) := rfl

/-- MONT's difference is a multiple of 2^16, because 62209 · 3329 ≡ 1 modulo 2^16. -/
theorem montDifference_emod (a : Int) : (a - (s16 (a * 62209)).toInt * 3329) % 2 ^ 16 = 0 := by
  have hu := toInt_s16_emod (a * 62209)
  omega

theorem montQuotient_mul (a : Int) : montQuotient a * 2 ^ 16 = a - (s16 (a * 62209)).toInt * 3329 :=
  Int.ediv_mul_cancel_of_emod_eq_zero (montDifference_emod a)

/-- The quotient is a · R^−1 modulo Q, because 2^16 · 169 ≡ 1 modulo Q. -/
theorem montQuotient_emod (a : Int) : montQuotient a % 3329 = a * 169 % 3329 := by
  have hq := montQuotient_mul a
  omega

/-- The quotient differs from a / 2^16 by at most Q / 2, because the multiplier of Q is a 16-bit integer. -/
theorem montQuotient_near (a : Int) :
    a - 32767 * 3329 ≤ montQuotient a * 2 ^ 16 ∧ montQuotient a * 2 ^ 16 ≤ a + 32768 * 3329 := by
  have hq := montQuotient_mul a
  have hlo := le_toInt_coef (s16 (a * 62209))
  have hhi := toInt_coef_le (s16 (a * 62209))
  omega

theorem montQuotient_bounds {a : Int} (hlo : -2 ^ 31 ≤ a) (hhi : a < 2 ^ 31) :
    -34432 ≤ montQuotient a ∧ montQuotient a ≤ 34432 := by
  have hnear := montQuotient_near a
  omega

theorem montQuotient_bounds_of_domain {a : Int} (hlo : -109084672 ≤ a) (hhi : a ≤ 109084671) :
    -3328 ≤ montQuotient a ∧ montQuotient a ≤ 3328 := by
  have hnear := montQuotient_near a
  omega

/-- In the contract domain MONT narrows nothing away. -/
theorem toInt_mont {a : Int} (hlo : -109084672 ≤ a) (hhi : a ≤ 109084671) : (mont a).toInt = montQuotient a := by
  obtain ⟨hqlo, hqhi⟩ := montQuotient_bounds_of_domain hlo hhi
  rw [mont_eq_s16, toInt_s16] <;> omega

theorem toInt_mont_bounds {a : Int} (hlo : -109084672 ≤ a) (hhi : a ≤ 109084671) :
    -3328 ≤ (mont a).toInt ∧ (mont a).toInt ≤ 3328 := by
  rw [toInt_mont hlo hhi]
  exact montQuotient_bounds_of_domain hlo hhi

theorem toInt_mont_emod {a : Int} (hlo : -109084672 ≤ a) (hhi : a ≤ 109084671) :
    (mont a).toInt % 3329 = a * 169 % 3329 := by
  rw [toInt_mont hlo hhi, montQuotient_emod]

/-- A quotient that does not fit wraps by 2^16 once, and 2^16 is not a multiple of Q: the congruence is lost. -/
theorem toInt_mont_emod_iff {a : Int} (hlo : -2 ^ 31 ≤ a) (hhi : a < 2 ^ 31) :
    (mont a).toInt % 3329 = a * 169 % 3329 ↔ -32768 ≤ montQuotient a ∧ montQuotient a ≤ 32767 := by
  rw [← montQuotient_emod, mont_eq_s16]
  constructor
  · intro hcongr
    have hbounds := montQuotient_bounds hlo hhi
    have hwrap := toInt_s16_emod (montQuotient a)
    have hrlo := le_toInt_coef (s16 (montQuotient a))
    have hrhi := toInt_coef_le (s16 (montQuotient a))
    omega
  · rintro ⟨hqlo, hqhi⟩
    rw [toInt_s16 hqlo hqhi]

/-- Settles O7: the facts about the exact quotient, and `s16` being exact where the quotient fits. -/
theorem montgomeryContract : Obligations.MontgomeryContract := by
  unfold Obligations.MontgomeryContract
  intro a hlo hhi
  obtain ⟨hqlo, hqhi⟩ := montQuotient_bounds hlo hhi
  refine ⟨montDifference_emod a, hqlo, hqhi, mont_eq_s16 a, fun hdlo hdhi => ?_, toInt_mont_emod_iff hlo hhi⟩
  obtain ⟨hrlo, hrhi⟩ := toInt_mont_bounds hdlo hdhi
  exact ⟨hrlo, hrhi, toInt_mont_emod hdlo hdhi⟩

/-! ## FQMUL (R121) -/

theorem toInt_mul_bounds (a b : Coef) :
    -1073709056 ≤ a.toInt * b.toInt ∧ a.toInt * b.toInt ≤ 1073741824 := by
  have halo := sub_nonneg.mpr (le_toInt_coef a)
  have hahi := sub_nonneg.mpr (toInt_coef_le a)
  have hblo := sub_nonneg.mpr (le_toInt_coef b)
  have hbhi := sub_nonneg.mpr (toInt_coef_le b)
  constructor
  · linarith [mul_nonneg halo hblo, mul_nonneg hahi hbhi]
  · linarith [mul_nonneg halo hbhi, mul_nonneg hahi hblo]

/-- One operand in [−3328, 3328] puts the product in MONT's contract domain. -/
theorem abs_mul_toInt_le {x : Int} (hlo : -3328 ≤ x) (hhi : x ≤ 3328) (b : Coef) : |x * b.toInt| ≤ 109084671 := by
  calc |x * b.toInt| = |x| * |b.toInt| := abs_mul x b.toInt
    _ ≤ 3328 * 32768 := mul_le_mul (abs_le.mpr ⟨hlo, hhi⟩) (abs_toInt_coef_le b) (abs_nonneg _) (by decide)
    _ ≤ 109084671 := by decide

theorem toInt_fqmul_emod {a b : Coef} (h : |a.toInt * b.toInt| ≤ 109084671) :
    (fqmul a b).toInt % 3329 = a.toInt * b.toInt * 169 % 3329 := by
  obtain ⟨hlo, hhi⟩ := abs_le.mp h
  exact toInt_mont_emod ((by decide : (-109084672 : Int) ≤ -109084671).trans hlo) hhi

/-- Settles O8: FQMUL is MONT of the product by definition; the rest is the product's size against MONT's domain. -/
theorem montgomeryProduct : Obligations.MontgomeryProduct := by
  unfold Obligations.MontgomeryProduct
  intro a b
  obtain ⟨hlo, hhi⟩ := toInt_mul_bounds a b
  refine ⟨rfl, hlo, hhi, toInt_fqmul_emod, fun halo hahi => abs_mul_toInt_le halo hahi b, fun hblo hbhi => ?_⟩
  rw [mul_comm]
  exact abs_mul_toInt_le hblo hbhi a

/-! ## CSUBQ (R123) -/

/-- The 17-bit difference of CSUBQ does not wrap. -/
theorem toInt_csubqDifference {a : Int} (hlo : -32768 ≤ a) (hhi : a ≤ 32767) :
    (BitVec.ofInt 17 (a - 3329)).toInt = a - 3329 :=
  BitVec.toInt_ofInt_eq_self (by decide) (by omega) (by omega)

/-- So its sign bit says whether a < Q. -/
theorem csubqInt_eq {a : Int} (hlo : -32768 ≤ a) (hhi : a ≤ 32767) :
    csubqInt a = if 3329 ≤ a then a - 3329 else a := by
  have hsign : (BitVec.ofInt 17 (a - 3329)).msb = decide (a - 3329 < 0) := by
    rw [BitVec.msb_eq_toInt, toInt_csubqDifference hlo hhi]
  simp only [csubqInt, Config.modulus, hsign, decide_eq_true_eq]
  split_ifs <;> omega

theorem toInt_s16_csubqInt {a : Int} (hlo : -32768 ≤ a) (hhi : a ≤ 32767) :
    (s16 (csubqInt a)).toInt = if 3329 ≤ a then a - 3329 else a := by
  rw [csubqInt_eq hlo hhi, toInt_s16] <;> split_ifs <;> omega

theorem toInt_csubq (a : Coef) : (csubq a).toInt = if 3329 ≤ a.toInt then a.toInt - 3329 else a.toInt :=
  toInt_s16_csubqInt (le_toInt_coef a) (toInt_coef_le a)

/-- Settles O10: the difference keeps its sign in 17 bits, so the correction is made exactly when a < Q. -/
theorem csubqSubtractsOnce : Obligations.CsubqSubtractsOnce := by
  unfold Obligations.CsubqSubtractsOnce
  intro a
  rw [toInt_csubq]
  refine ⟨rfl, toInt_csubqDifference (le_toInt_coef a) (toInt_coef_le a), fun hlo hhi => ?_, fun hlo => ?_⟩ <;>
    split_ifs <;> omega

/-! ## BARRETT (R122) -/

/-- What the fixed-point estimate alone leaves of a (R122). -/
def barrettEstimate (a : Coef) : Int := a.toInt - 20159 * a.toInt / 2 ^ 26 * 3329

theorem barrett_eq_s16 (a : Coef) : barrett a = s16 (csubqInt (barrettEstimate a)) := rfl

/-- 20159 · Q exceeds 2^26 by 447, so on 16-bit inputs the estimated quotient is exact, or one too small with Q left. -/
theorem barrettEstimate_bounds (a : Coef) : 0 ≤ barrettEstimate a ∧ barrettEstimate a ≤ 3329 := by
  have hlo := le_toInt_coef a
  have hhi := toInt_coef_le a
  unfold barrettEstimate
  omega

theorem barrettEstimate_emod (a : Coef) : barrettEstimate a % 3329 = a.toInt % 3329 :=
  Int.sub_mul_emod_self_right _ _ _

theorem toInt_barrett (a : Coef) : (barrett a).toInt = a.toInt % 3329 := by
  obtain ⟨hlo, hhi⟩ := barrettEstimate_bounds a
  rw [barrett_eq_s16, toInt_s16_csubqInt (by omega) (by omega), ← barrettEstimate_emod]
  split_ifs <;> omega

/-- Settles O9: the estimate is congruent to a and in [0, Q], and CSUBQ maps Q to 0. -/
theorem barrettResidue : Obligations.BarrettResidue := by
  unfold Obligations.BarrettResidue
  exact fun a => ⟨toInt_barrett a, barrettEstimate_bounds a⟩

/-! ## The scalar commands (R124 to R128) -/

theorem lowHalf_eq_extractLsb' (w : Word) : lowHalf w = w.extractLsb' 0 16 :=
  BitVec.setWidth_eq_extractLsb' (by decide)

/-- A command whose effect is a value for SR completes with it in SR, and changes nothing else (R24, R301). -/
theorem exec_of_effect_sr {i : Instr} {s : State} {r : Coef} (hwf : i.wellFormed s.build.k = true)
    (heffect : effectOf i s = some { s with sr := r }) : exec i s = .next { complete s with sr := r } :=
  exec_eq_next.mpr ⟨hwf, { s with sr := r }, heffect, rfl⟩

/-- Settles O11: the completion step of a command without an effect is `complete`. -/
theorem nopCompletes : Obligations.NopCompletes := by
  unfold Obligations.NopCompletes
  exact fun s => ⟨exec_eq_next.mpr ⟨rfl, s, rfl, rfl⟩, rfl, complete_busy s⟩

/-- Settles O12: SR is the one thing MONTRED's effect sets. -/
theorem montredWritesSr : Obligations.MontredWritesSr := by
  unfold Obligations.MontredWritesSr
  exact fun s => exec_of_effect_sr rfl rfl

/-- Settles O13: BARRED sets SR to BARRETT of the low half of SA, which is its residue. -/
theorem barredWritesResidue : Obligations.BarredWritesResidue := by
  unfold Obligations.BarredWritesResidue
  intro s
  refine ⟨barrett (lowHalf s.sa), exec_of_effect_sr rfl rfl, ?_⟩
  rw [toInt_barrett, lowHalf_eq_extractLsb']

/-- Settles O14: the command sets SR to the function CSUBQ of the low half of SA. -/
theorem csubqCommandWritesSr : Obligations.CsubqCommandWritesSr := by
  unfold Obligations.CsubqCommandWritesSr
  intro s
  refine ⟨csubq (lowHalf s.sa), exec_of_effect_sr rfl rfl, ?_⟩
  rw [toInt_csubq, lowHalf_eq_extractLsb']

/-- Settles O15: FQMUL sets SR to MONT of the exact product of the low halves. -/
theorem fqmulWritesSr : Obligations.FqmulWritesSr := by
  unfold Obligations.FqmulWritesSr
  intro s
  simp only [← lowHalf_eq_extractLsb']
  exact exec_of_effect_sr rfl rfl

end Sys2Proof.Machine
end

section
/-! SUPPORT. One layer of a transform coefficient by coefficient (spec/41_ntt.md R152, R154). Both transforms are layers of
butterflies: two coefficients of a block, `len` apart, are replaced by two functions of themselves and of the block's twiddle.
The block-by-block layer of the model and the pseudocode's loops are each shown to be such a layer, and a layer has only one
result. -/

namespace Sys2Proof.Machine

open Sys2Proof.Claims

/-- What a butterfly writes to the lower and to the upper place, from the twiddle and the coefficients it finds there. -/
structure Butterfly where
  lower : Coef → Coef → Coef → Coef
  upper : Coef → Coef → Coef → Coef

/-- The Cooley–Tukey butterfly of R152. -/
def nttButterfly : Butterfly where
  lower z lo hi := addWrap lo (fqmul z hi)
  upper z lo hi := subWrap lo (fqmul z hi)

/-- The Gentleman–Sande butterfly of R154. -/
def invnttButterfly : Butterfly where
  lower _ lo hi := barrett (addWrap lo hi)
  upper z lo hi := fqmul z (subWrap hi lo)

/-- `q` is `r` after the butterfly at each place `j` of the `n` blocks of length `2·len`, block `b` with the twiddle `z b`. -/
def Butterfly.Layer (g : Butterfly) (len n : Nat) (z : Nat → Coef) (r q : Poly) : Prop :=
  ∀ b < n, ∀ j < len,
    get q (2 * len * b + j) = g.lower (z b) (get r (2 * len * b + j)) (get r (2 * len * b + j + len)) ∧
    get q (2 * len * b + j + len) = g.upper (z b) (get r (2 * len * b + j)) (get r (2 * len * b + j + len))

/-! ## The places of a layer -/

theorem len_pos {len n : Nat} (hn : len * n = 128) : 0 < len := Nat.pos_of_ne_zero fun h => by simp [h] at hn

/-- The two places of a butterfly of block `b` lie before the end of that block. -/
theorem place_lt {len b n j : Nat} (hb : b < n) (hj : j < len) : 2 * len * b + j + len < 2 * len * n :=
  calc 2 * len * b + j + len < 2 * len * (b + 1) := by rw [Nat.mul_succ]; omega
    _ ≤ 2 * len * n := Nat.mul_le_mul_left _ hb

theorem place_lt_256 {len n b j : Nat} (hn : len * n = 128) (hb : b < n) (hj : j < len) : 2 * len * b + j + len < 256 := by
  have h := place_lt hb hj
  rwa [Nat.mul_assoc 2 len n, hn] at h

/-- Every coefficient is the lower or the upper one of a butterfly. -/
theorem exists_place {len n x : Nat} (hx : x < 2 * len * n) :
    ∃ b < n, ∃ j < len, x = 2 * len * b + j ∨ x = 2 * len * b + j + len := by
  have hpos : 0 < 2 * len := Nat.pos_of_ne_zero fun h => by simp [h] at hx
  have hdiv : x / (2 * len) < n := Nat.div_lt_of_lt_mul hx
  have hmod := Nat.mod_lt x hpos
  have hsplit := Nat.div_add_mod x (2 * len)
  by_cases h : x % (2 * len) < len
  · exact ⟨_, hdiv, x % (2 * len), h, .inl hsplit.symm⟩
  · exact ⟨_, hdiv, x % (2 * len) - len, by omega, .inr (by omega)⟩

/-- A statement about every coefficient follows from the two places of every butterfly. -/
theorem forall_of_places {len n : Nat} (hn : len * n = 128) {P : Nat → Prop}
    (h : ∀ b < n, ∀ j < len, P (2 * len * b + j) ∧ P (2 * len * b + j + len)) : ∀ i < 256, P i := by
  intro i hi
  obtain ⟨b, hb, j, hj, rfl | rfl⟩ := exists_place (len := len) (n := n) (x := i) (by rw [Nat.mul_assoc, hn]; exact hi)
  · exact (h b hb j hj).1
  · exact (h b hb j hj).2

/-- A layer has one result. -/
theorem Butterfly.Layer.unique {g : Butterfly} {len n : Nat} {z : Nat → Coef} {r q q' : Poly} (hn : len * n = 128)
    (h : g.Layer len n z r q) (h' : g.Layer len n z r q') : q = q' :=
  poly_ext <| forall_of_places hn fun b hb j hj => by
    obtain ⟨hlo, hhi⟩ := h b hb j hj
    obtain ⟨hlo', hhi'⟩ := h' b hb j hj
    exact ⟨hlo.trans hlo'.symm, hhi.trans hhi'.symm⟩

/-! ## The model's layer: block by block on lists -/

/-- The blocks of a layer, the first twiddle of the list for the first block. -/
def Butterfly.blocks (g : Butterfly) (len : Nat) : List Coef → List Coef → List Coef
  | [], _ => []
  | z :: zs, r =>
    List.zipWith (g.lower z) (r.take len) ((r.drop len).take len) ++
      List.zipWith (g.upper z) (r.take len) ((r.drop len).take len) ++ blocks g len zs (r.drop (2 * len))

theorem nttBlocks_eq (len : Nat) (zs r : List Coef) : nttBlocks len zs r = nttButterfly.blocks len zs r := by
  induction zs generalizing r with
  | nil => rfl
  | cons z zs ih => simp only [nttBlocks, Butterfly.blocks, nttButterfly, ih, List.zipWith_map_right]

theorem invnttBlocks_eq (len : Nat) (zs r : List Coef) : invnttBlocks len zs r = invnttButterfly.blocks len zs r := by
  induction zs generalizing r with
  | nil => rfl
  | cons z zs ih =>
    simp only [invnttBlocks, Butterfly.blocks, invnttButterfly, ih, List.map_zipWith]
    rw [List.zipWith_comm (f := fun hi lo => fqmul z (subWrap hi lo))]

theorem getD_zipWith (f : Coef → Coef → Coef) {l l' : List Coef} {j : Nat} (h : j < l.length) (h' : j < l'.length) :
    (List.zipWith f l l').getD j 0 = f (l.getD j 0) (l'.getD j 0) := by
  simp [h, h']

/-- The two coefficients of place `j` of block `b`. -/
theorem Butterfly.getD_blocks (g : Butterfly) {len : Nat} {zs r : List Coef} (h : r.length = 2 * len * zs.length) {b j : Nat}
    (hb : b < zs.length) (hj : j < len) :
    (g.blocks len zs r).getD (2 * len * b + j) 0 =
        g.lower (zs.getD b 0) (r.getD (2 * len * b + j) 0) (r.getD (2 * len * b + j + len) 0) ∧
      (g.blocks len zs r).getD (2 * len * b + j + len) 0 =
        g.upper (zs.getD b 0) (r.getD (2 * len * b + j) 0) (r.getD (2 * len * b + j + len) 0) := by
  induction zs generalizing r b with
  | nil => simp at hb
  | cons z zs ih =>
    rw [List.length_cons, Nat.mul_succ] at h
    have hlo : (r.take len).length = len := by rw [List.length_take]; omega
    have hhi : ((r.drop len).take len).length = len := by rw [List.length_take, List.length_drop]; omega
    have hlen (f : Coef → Coef → Coef) : (List.zipWith f (r.take len) ((r.drop len).take len)).length = len := by
      rw [List.length_zipWith, hlo, hhi, Nat.min_self]
    cases b with
    | zero =>
      have hrlo : (r.take len).getD j 0 = r.getD j 0 := by simp [hj]
      have hrhi : ((r.drop len).take len).getD j 0 = r.getD (j + len) 0 := by simp [hj, Nat.add_comm]
      rw [Nat.mul_zero, Nat.zero_add, Butterfly.blocks, List.append_assoc]
      constructor
      · rw [List.getD_append _ _ _ _ (by rwa [hlen]), getD_zipWith _ (by rwa [hlo]) (by rwa [hhi]), hrlo, hrhi]
        rfl
      · rw [List.getD_append_right _ _ _ _ (by rw [hlen]; omega), hlen, Nat.add_sub_cancel,
          List.getD_append _ _ _ _ (by rwa [hlen]), getD_zipWith _ (by rwa [hlo]) (by rwa [hhi]), hrlo, hrhi]
        rfl
    | succ b =>
      have hskip (x : Nat) : (g.blocks len (z :: zs) r).getD (2 * len + x) 0 =
          (g.blocks len zs (r.drop (2 * len))).getD x 0 := by
        rw [Butterfly.blocks, List.getD_append_right _ _ _ _ (by simp only [List.length_append, hlen]; omega)]
        congr 1
        simp only [List.length_append, hlen]
        omega
      have hdrop (x : Nat) : r.getD (2 * len + x) 0 = (r.drop (2 * len)).getD x 0 := by simp
      rw [show 2 * len * (b + 1) + j = 2 * len + (2 * len * b + j) by rw [Nat.mul_succ]; omega, Nat.add_assoc (2 * len),
        hskip, hskip, hdrop, hdrop]
      exact ih (by rw [List.length_drop]; omega) (Nat.lt_of_succ_lt_succ hb)

/-- A polynomial made from the blocks of another is that other after one layer. -/
theorem Butterfly.layer_blocks (g : Butterfly) {len n : Nat} (hn : len * n = 128) (z : Nat → Coef) (r : Poly) {l : List Coef}
    (hl : l = g.blocks len ((List.range n).map z) r.toList) (hlen : l.length = 256) :
    g.Layer len n z r (Poly.ofList l) := by
  intro b hb j hj
  have hz : ((List.range n).map z).getD b 0 = z b := by simp [hb]
  have h := g.getD_blocks (len := len) (zs := (List.range n).map z) (r := r.toList) (b := b)
    (by simp [Nat.mul_assoc, hn]) (by simpa using hb) hj
  rw [← hl, hz, getD_toList, getD_toList, ← toList_ofList hlen, getD_toList, getD_toList] at h
  exact h

theorem nttLayer_layer {len n : Nat} (hn : len * n = 128) (r : Poly) :
    nttButterfly.Layer len n (fun b => zeta (n + b)) r (nttLayer r len) := by
  have hlen := len_pos hn
  have hzetas : nttZetas len = (List.range n).map fun b => zeta (n + b) := by
    rw [nttZetas, ← hn, Nat.mul_div_cancel_left n hlen]
  refine nttButterfly.layer_blocks hn _ r (by rw [hzetas, nttBlocks_eq]) ?_
  rw [nttBlocks_length] <;> simp [hzetas, Nat.mul_assoc, hn]

theorem invnttLayer_layer {len n : Nat} (hn : len * n = 128) (r : Poly) :
    invnttButterfly.Layer len n (fun b => zeta (2 * n - 1 - b)) r (invnttLayer r len) := by
  have hlen := len_pos hn
  have hzetas : invnttZetas len = (List.range n).map fun b => zeta (2 * n - 1 - b) := by
    rw [invnttZetas, show 256 = len * (2 * n) by rw [Nat.mul_left_comm, hn], ← hn, Nat.mul_div_cancel_left n hlen,
      Nat.mul_div_cancel_left _ hlen]
  refine invnttButterfly.layer_blocks hn _ r (by rw [hzetas, invnttBlocks_eq]) ?_
  rw [invnttBlocks_length] <;> simp [hzetas, Nat.mul_assoc, hn]

/-! ## The pseudocode's layer: the loops over blocks and places -/

theorem get_set {r : Poly} {i : Nat} (hi : i < 256) (c : Coef) (x : Nat) :
    get (set r i c) x = if x = i then c else get r x := by
  simp only [Claims.get, Claims.set, Vector.getElem?_setIfInBounds]
  by_cases h : i = x
  · subst h
    simp [hi]
  · rw [if_neg h, if_neg (Ne.symm h)]

/-- `r` after the butterflies at the first `m` places of the block that starts at `start`, coefficient by coefficient. -/
def Butterfly.blockAt (g : Butterfly) (z : Coef) (start len m : Nat) (r : Poly) (x : Nat) : Coef :=
  if start ≤ x ∧ x < start + m then g.lower z (get r x) (get r (x + len))
  else if start + len ≤ x ∧ x < start + len + m then g.upper z (get r (x - len)) (get r x)
  else get r x

/-- A loop body that does the butterfly at the place it is given. -/
def Butterfly.IsBody (g : Butterfly) (z : Coef) (len : Nat) (body : Poly → Nat → Poly) : Prop :=
  ∀ r j, j + len < 256 → ∀ x, get (body r j) x =
    if x = j then g.lower z (get r j) (get r (j + len))
    else if x = j + len then g.upper z (get r j) (get r (j + len))
    else get r x

theorem nttBody_isBody (z : Coef) {len : Nat} (hlen : 0 < len) : nttButterfly.IsBody z len (nttBody z len) := by
  intro r j hj x
  rw [nttBody, get_set (by omega), get_set hj, get_set hj, if_neg (show j ≠ j + len by omega)]
  rfl

theorem invnttBody_isBody (z : Coef) {len : Nat} (hlen : 0 < len) :
    invnttButterfly.IsBody z len (invnttBody z len) := by
  intro r j hj x
  rw [invnttBody, get_set hj, get_set (by omega), get_set (by omega), if_neg (show j + len ≠ j by omega)]
  by_cases hx : x = j
  · rw [if_neg (by omega), if_pos hx, if_pos hx]
    rfl
  · rw [if_neg hx, if_neg hx]
    rfl

/-- The inner loop: the butterflies of one block, none of which reads what another has written. -/
theorem Butterfly.IsBody.get_foldl {g : Butterfly} {z : Coef} {len : Nat} {body : Poly → Nat → Poly}
    (h : g.IsBody z len body) {start m : Nat} (hm : m ≤ len) (hstart : start + m + len ≤ 256) (r : Poly) (x : Nat) :
    get ((List.range' start m).foldl body r) x = g.blockAt z start len m r x := by
  induction m generalizing x with
  | zero => rw [Butterfly.blockAt, if_neg (by omega), if_neg (by omega)]; rfl
  | succ m ih =>
    have hprev := ih (by omega) (by omega)
    have hlo : get ((List.range' start m).foldl body r) (start + m) = get r (start + m) := by
      rw [hprev, Butterfly.blockAt, if_neg (by omega), if_neg (by omega)]
    have hhi : get ((List.range' start m).foldl body r) (start + m + len) = get r (start + m + len) := by
      rw [hprev, Butterfly.blockAt, if_neg (by omega), if_neg (by omega)]
    rw [List.range'_1_concat, List.foldl_append, List.foldl_cons, List.foldl_nil, h _ _ (by omega), hlo, hhi, hprev]
    unfold Butterfly.blockAt
    by_cases hx : x = start + m
    · subst hx
      rw [if_pos rfl, if_pos (by omega)]
    · by_cases hx' : x = start + m + len
      · subst hx'
        rw [if_neg hx, if_pos rfl, if_neg (by omega), if_pos (by omega), Nat.add_sub_cancel]
      · rw [if_neg hx, if_neg hx']
        simp only [show x < start + (m + 1) ↔ x < start + m by omega,
          show x < start + len + (m + 1) ↔ x < start + len + m by omega]

/-- The loop over the blocks: after `n` blocks from the twiddle `zeta (k 0)` on, the running index is `k n`, the coefficients
past these blocks are as they were, and those of the blocks are a layer. -/
theorem Butterfly.foldl_blocks {g : Butterfly} {len : Nat} {block : Nat × Poly → Nat → Nat × Poly} {k : Nat → Nat}
    {body : Coef → Poly → Nat → Poly} (hbody : ∀ z, g.IsBody z len (body z))
    (hblock : ∀ b r start, block (k b, r) start = (k (b + 1), (List.range' start len).foldl (body (zeta (k b))) r))
    {n : Nat} (hn : len * n ≤ 128) (r : Poly) :
    ∃ q, ((List.range n).map fun b => 2 * len * b).foldl block (k 0, r) = (k n, q) ∧
      (∀ x, 2 * len * n ≤ x → get q x = get r x) ∧ g.Layer len n (fun b => zeta (k b)) r q := by
  induction n with
  | zero => exact ⟨r, rfl, fun _ _ => rfl, fun b hb => absurd hb (Nat.not_lt_zero b)⟩
  | succ n ih =>
    rw [Nat.mul_succ] at hn
    have hend : 2 * len * n + len + len ≤ 256 := by rw [Nat.mul_assoc]; omega
    obtain ⟨q, hq, hkept, hlayer⟩ := ih (by omega)
    have hget := (hbody (zeta (k n))).get_foldl (Nat.le_refl len) hend q
    refine ⟨(List.range' (2 * len * n) len).foldl (body (zeta (k n))) q, ?_, fun x hx => ?_, fun b hb j hj => ?_⟩
    · rw [List.range_succ, List.map_append, List.foldl_append, hq]
      exact hblock n q _
    · rw [Nat.mul_succ] at hx
      rw [hget, Butterfly.blockAt, if_neg (by omega), if_neg (by omega), hkept x (by omega)]
    · rw [hget, hget]
      unfold Butterfly.blockAt
      rcases Nat.lt_succ_iff_lt_or_eq.mp hb with hb | rfl
      · have hplace := place_lt hb hj
        rw [if_neg (by omega), if_neg (by omega), if_neg (by omega), if_neg (by omega)]
        exact hlayer b hb j hj
      · rw [if_pos (by omega), if_neg (by omega), if_pos (by omega), Nat.add_sub_cancel, hkept _ (by omega),
          hkept _ (by omega)]
        exact ⟨rfl, rfl⟩

theorem nttPass_eq {len n : Nat} (hn : len * n = 128) (r : Poly) : nttPass (n, r) len = (2 * n, nttLayer r len) := by
  have hlen := len_pos hn
  obtain ⟨q, hq, -, hlayer⟩ := Butterfly.foldl_blocks (block := nttBlock len) (k := fun b => n + b)
    (fun z => nttBody_isBody z hlen) (fun _ _ _ => rfl) (Nat.le_of_eq hn) r
  rw [nttPass, show 128 / len = n by rw [← hn, Nat.mul_div_cancel_left n hlen],
    (nttLayer_layer hn r).unique hn hlayer, Nat.two_mul n]
  exact hq

theorem invnttPass_eq {len n : Nat} (hn : len * n = 128) (r : Poly) :
    invnttPass (2 * n - 1, r) len = (n - 1, invnttLayer r len) := by
  have hlen := len_pos hn
  obtain ⟨q, hq, -, hlayer⟩ := Butterfly.foldl_blocks (block := invnttBlock len) (k := fun b => 2 * n - 1 - b)
    (fun z => invnttBody_isBody z hlen) (fun _ _ _ => rfl) (Nat.le_of_eq hn) r
  rw [invnttPass, show 128 / len = n by rw [← hn, Nat.mul_div_cancel_left n hlen],
    (invnttLayer_layer hn r).unique hn hlayer, show n - 1 = 2 * n - 1 - n by omega]
  exact hq

/-! ## The transforms -/

theorem coefAt_eq_toInt_get (p : Poly) (i : Nat) : coefAt p i = (get p i).toInt := rfl

theorem get_mapVec (f : Coef → Coef) (p : Poly) {i : Nat} (hi : i < 256) : get (mapVec f p) i = f (get p i) := by
  simp [Claims.get, hi]

theorem coefAt_reducePoly (p : Poly) {i : Nat} (hi : i < 256) : coefAt (reducePoly p) i = coefAt p i % 3329 := by
  rw [coefAt_eq_toInt_get, reducePoly, get_mapVec _ _ hi, toInt_barrett]
  rfl

/-- A polynomial whose coefficients are results of BARRETT is canonical (R122). -/
theorem canonical_of_barrett {p : Poly} {c : Nat → Coef} (h : ∀ i < 256, get p i = barrett (c i)) : Canonical p := by
  intro i hi
  rw [coefAt_eq_toInt_get, h i hi, toInt_barrett]
  omega

/-- Settles O26: each pass of the loop is one layer, and leaves the twiddle index at which the next pass starts. -/
theorem nttRefinesPseudocode : Obligations.NttRefinesPseudocode := by
  unfold Obligations.NttRefinesPseudocode
  refine fun f => ⟨?_, canonical_of_barrett fun i hi => get_mapVec _ _ hi⟩
  have hpasses : ([128, 64, 32, 16, 8, 4, 2].foldl nttPass (1, f)).2 = [128, 64, 32, 16, 8, 4, 2].foldl nttLayer f := by
    simp only [List.foldl_cons, List.foldl_nil]
    iterate 7 rw [nttPass_eq (by rfl)]
  rw [nttPseudocode, hpasses, nttF, reducePoly, mapVec_eq_map]

/-- Settles O27: each pass of the loop is one layer, and leaves the twiddle index at which the next pass starts. -/
theorem invnttRefinesPseudocode : Obligations.InvnttRefinesPseudocode := by
  unfold Obligations.InvnttRefinesPseudocode
  refine fun h => ⟨?_, canonical_of_barrett fun i hi => get_mapVec _ _ hi⟩
  have hpasses : ([2, 4, 8, 16, 32, 64, 128].foldl invnttPass (127, h)).2 =
      [2, 4, 8, 16, 32, 64, 128].foldl invnttLayer h := by
    simp only [List.foldl_cons, List.foldl_nil]
    rw [invnttPass_eq (n := 64) (by rfl), invnttPass_eq (n := 32) (by rfl), invnttPass_eq (n := 16) (by rfl),
      invnttPass_eq (n := 8) (by rfl), invnttPass_eq (n := 4) (by rfl), invnttPass_eq (n := 2) (by rfl),
      invnttPass_eq (n := 1) (by rfl)]
  rw [invnttPseudocode, hpasses, invnttF, mapVec_eq_map]
  rfl

end Sys2Proof.Machine
end

section
/-! SUPPORT. The twiddle ROM and base multiplication (spec/41_ntt.md R150, R156) as equations between residues modulo Q. -/

namespace Sys2Proof.Machine

open Sys2Proof.Claims

/-! ## Coefficients modulo Q -/

/-- A coefficient modulo Q. -/
def residue (x : Coef) : ZMod 3329 := (x.toInt : ZMod 3329)

theorem intCast_coefAt (p : Poly) (i : Nat) : (coefAt p i : ZMod 3329) = residue (get p i) := rfl

theorem residue_eq_iff {x : Coef} {v : Int} : residue x = (v : ZMod 3329) ↔ x.toInt % 3329 = v % 3329 :=
  ZMod.intCast_eq_intCast_iff' _ _ 3329

@[simp] theorem residue_barrett (x : Coef) : residue (barrett x) = residue x :=
  residue_eq_iff.mpr (by rw [toInt_barrett, Int.emod_emod])

/-- A wrapping sum that does not wrap (R12). -/
theorem toInt_addWrap {a b : Coef} (h : |a.toInt| + |b.toInt| ≤ 32767) : (addWrap a b).toInt = a.toInt + b.toInt := by
  obtain ⟨hlo, hhi⟩ := abs_le.mp ((abs_add_le a.toInt b.toInt).trans h)
  exact toInt_s16 (by omega) hhi

/-- A wrapping difference that does not wrap (R12). -/
theorem toInt_subWrap {a b : Coef} (h : |a.toInt| + |b.toInt| ≤ 32767) : (subWrap a b).toInt = a.toInt - b.toInt := by
  obtain ⟨hlo, hhi⟩ := abs_le.mp ((abs_sub a.toInt b.toInt).trans h)
  exact toInt_s16 (by omega) hhi

theorem residue_addWrap {a b : Coef} (h : |a.toInt| + |b.toInt| ≤ 32767) :
    residue (addWrap a b) = residue a + residue b := by
  rw [residue, toInt_addWrap h, Int.cast_add, residue, residue]

theorem residue_subWrap {a b : Coef} (h : |a.toInt| + |b.toInt| ≤ 32767) :
    residue (subWrap a b) = residue a - residue b := by
  rw [residue, toInt_subWrap h, Int.cast_sub, residue, residue]

/-- FQMUL in MONT's domain, where R^−1 = 169 (R121). -/
theorem residue_fqmul {a b : Coef} (h : |a.toInt * b.toInt| ≤ 109084671) :
    residue (fqmul a b) = residue a * residue b * 169 := by
  rw [residue_eq_iff.mpr (toInt_fqmul_emod h)]
  push_cast
  rfl

theorem abs_fqmul_le {a b : Coef} (h : |a.toInt * b.toInt| ≤ 109084671) : |(fqmul a b).toInt| ≤ 3328 := by
  obtain ⟨hlo, hhi⟩ := abs_le.mp h
  exact abs_le.mpr (toInt_mont_bounds (by omega) hhi)

/-- A factor in [−3328, 3328] keeps a product in MONT's domain (R121). -/
theorem abs_toInt_mul_le {a : Coef} (h : |a.toInt| ≤ 3328) (b : Coef) : |a.toInt * b.toInt| ≤ 109084671 :=
  abs_mul_toInt_le (abs_le.mp h).1 (abs_le.mp h).2 b

/-! ## The twiddle ROM (R150) -/

theorem zetas_formula : ∀ i < 128, zetas.getD i 0 = 65536 * 17 ^ brv7 i % 3329 := by decide +kernel

theorem toInt_zeta {i : Nat} (hi : i < 128) : (zeta i).toInt = ((65536 * 17 ^ brv7 i % 3329 : Nat) : Int) := by
  rw [zeta, zetas_formula i hi, toInt_s16] <;> omega

theorem abs_zeta_le {i : Nat} (hi : i < 128) : |(zeta i).toInt| ≤ 3328 := by
  rw [toInt_zeta hi, abs_le]
  omega

theorem residue_zeta {i : Nat} (hi : i < 128) : residue (zeta i) = 65536 * 17 ^ brv7 i := by
  rw [residue, toInt_zeta hi, Int.cast_natCast, ZMod.natCast_mod]
  push_cast
  rfl

theorem abs_zeta_mul_le {i : Nat} (hi : i < 128) (x : Coef) : |(zeta i).toInt * x.toInt| ≤ 109084671 :=
  abs_toInt_mul_le (abs_zeta_le hi) x

theorem abs_fqmul_zeta_le {i : Nat} (hi : i < 128) (x : Coef) : |(fqmul (zeta i) x).toInt| ≤ 3328 :=
  abs_fqmul_le (abs_zeta_mul_le hi x)

/-- R · R^−1 = 1 modulo Q. -/
theorem montgomery_inverse : (65536 : ZMod 3329) * 169 = 1 := by decide

/-- FQMUL with a twiddle multiplies by its power of 17, because the twiddle carries the factor R that FQMUL divides by. -/
theorem residue_fqmul_zeta {i : Nat} (hi : i < 128) (x : Coef) :
    residue (fqmul (zeta i) x) = 17 ^ brv7 i * residue x := by
  rw [residue_fqmul (abs_zeta_mul_le hi x), residue_zeta hi]
  linear_combination 17 ^ brv7 i * residue x * montgomery_inverse

/-- Settles O29: the table is its formula entry by entry, and an entry's factor R cancels in FQMUL. -/
theorem twiddleTable : Obligations.TwiddleTable := by
  unfold Obligations.TwiddleTable
  refine ⟨by decide +kernel, by decide +kernel, zetas_formula, fun i hi x => residue_eq_iff.mp ?_⟩
  rw [residue_fqmul_zeta hi, residue]
  push_cast
  ring

/-! ## Base multiplication (R156) -/

/-- The twiddles of the two pairs of block `i`. -/
theorem pairZetas_getD : ∀ i < 64, pairZetas.getD (2 * i) 0 = zeta (64 + i) ∧ pairZetas.getD (2 * i + 1) 0 = -zeta (64 + i) := by
  decide +kernel

/-- The twiddle of pair `p` is R · 17^(2·brv7(p)+1) modulo Q, the sign among it since 17^128 = −1. -/
theorem residue_pairZetas {p : Nat} (hp : p < 128) : residue (pairZetas.getD p 0) = 65536 * 17 ^ (2 * brv7 p + 1) := by
  have hall : ∀ p < 128, (pairZetas.getD p 0).toInt % 3329 = 65536 * 17 ^ (2 * brv7 p + 1) % 3329 := by decide +kernel
  rw [residue_eq_iff.mpr (hall p hp)]
  push_cast
  rfl

theorem getD_basemulPairs {zs as bs : List Coef} (ha : as.length = 2 * zs.length) (hb : bs.length = 2 * zs.length) {p : Nat}
    (hp : p < zs.length) :
    (basemulPairs zs as bs).getD (2 * p) 0 =
        addWrap (fqmul (fqmul (as.getD (2 * p + 1) 0) (bs.getD (2 * p + 1) 0)) (zs.getD p 0))
          (fqmul (as.getD (2 * p) 0) (bs.getD (2 * p) 0)) ∧
      (basemulPairs zs as bs).getD (2 * p + 1) 0 =
        addWrap (fqmul (as.getD (2 * p) 0) (bs.getD (2 * p + 1) 0))
          (fqmul (as.getD (2 * p + 1) 0) (bs.getD (2 * p) 0)) := by
  induction zs generalizing as bs p with
  | nil => simp at hp
  | cons z zs ih =>
    match as, bs, ha, hb with
    | a0 :: a1 :: as, b0 :: b1 :: bs, ha, hb =>
      cases p with
      | zero => exact ⟨rfl, rfl⟩
      | succ p =>
        simp only [List.length_cons] at ha hb hp
        exact ih (by omega) (by omega) (by omega)

/-- The two coefficients of pair `p` of the product. -/
theorem get_basemulRaw (a b : Poly) {p : Nat} (hp : p < 128) :
    get (basemulRaw a b) (2 * p) =
        addWrap (fqmul (fqmul (get a (2 * p + 1)) (get b (2 * p + 1))) (pairZetas.getD p 0))
          (fqmul (get a (2 * p)) (get b (2 * p))) ∧
      get (basemulRaw a b) (2 * p + 1) =
        addWrap (fqmul (get a (2 * p)) (get b (2 * p + 1))) (fqmul (get a (2 * p + 1)) (get b (2 * p))) := by
  have h := getD_basemulPairs (zs := pairZetas) (as := a.toList) (bs := b.toList) (by simp [pairZetas_length])
    (by simp [pairZetas_length]) (by simpa [pairZetas_length] using hp)
  rw [← toList_ofList (l := basemulPairs pairZetas a.toList b.toList)
    (by rw [basemulPairs_length] <;> simp [pairZetas_length])] at h
  rwa [getD_toList, getD_toList, getD_toList, getD_toList, getD_toList, getD_toList] at h

/-- R156's pseudocode at the pairs of block `i`: pair 2i with the twiddle, pair 2i+1 with its negative. -/
theorem basemulRaw_block (a b : Poly) {i o : Nat} {zz : Coef} (hi : i < 64)
    (ho : o = 4 * i ∧ zz = zeta (64 + i) ∨ o = 4 * i + 2 ∧ zz = -zeta (64 + i)) :
    get (basemulRaw a b) o = s16 ((fqmul (fqmul (get a (o + 1)) (get b (o + 1))) zz).toInt +
      (fqmul (get a o) (get b o)).toInt) ∧
    get (basemulRaw a b) (o + 1) = s16 ((fqmul (get a o) (get b (o + 1))).toInt +
      (fqmul (get a (o + 1)) (get b o)).toInt) := by
  obtain ⟨p, hp, rfl, rfl⟩ : ∃ p < 128, o = 2 * p ∧ zz = pairZetas.getD p 0 := by
    rcases ho with ⟨rfl, rfl⟩ | ⟨rfl, rfl⟩
    · exact ⟨2 * i, by omega, by omega, (pairZetas_getD i hi).1.symm⟩
    · exact ⟨2 * i + 1, by omega, by omega, (pairZetas_getD i hi).2.symm⟩
  exact get_basemulRaw a b hp

/-- The sum of two results of FQMUL in range does not wrap, and is in [−6656, 6656]. -/
theorem addWrap_products {x y : Coef} (hx : |x.toInt| ≤ 3328) (hy : |y.toInt| ≤ 3328) :
    |(addWrap x y).toInt| ≤ 6656 ∧ residue (addWrap x y) = residue x + residue y := by
  refine ⟨?_, residue_addWrap (by omega)⟩
  rw [toInt_addWrap (by omega)]
  exact (abs_add_le _ _).trans (by omega)

/-- All four products of coefficients of pair `p` are in MONT's domain. -/
def PairInDomain (a b : Poly) (p : Nat) : Prop :=
  ∀ x ∈ [2 * p, 2 * p + 1], ∀ y ∈ [2 * p, 2 * p + 1], |(get a x).toInt * (get b y).toInt| ≤ 109084671

section Pair
variable {a b : Poly} {p : Nat} (hp : p < 128) (h : PairInDomain a b p)
include hp h

/-- In MONT's domain the lower coefficient of a pair wraps nowhere, and the twiddle's factor R cancels. -/
theorem basemulRaw_lower :
    |(get (basemulRaw a b) (2 * p)).toInt| ≤ 6656 ∧
      residue (get (basemulRaw a b) (2 * p)) * 65536 = residue (get a (2 * p)) * residue (get b (2 * p)) +
        residue (get a (2 * p + 1)) * residue (get b (2 * p + 1)) * 17 ^ (2 * brv7 p + 1) := by
  have h00 := h (2 * p) (by simp) (2 * p) (by simp)
  have h11 := h (2 * p + 1) (by simp) (2 * p + 1) (by simp)
  have hz := abs_toInt_mul_le (abs_fqmul_le h11) (pairZetas.getD p 0)
  obtain ⟨hrange, hsum⟩ := addWrap_products (abs_fqmul_le hz) (abs_fqmul_le h00)
  rw [(get_basemulRaw a b hp).1]
  refine ⟨hrange, ?_⟩
  rw [hsum, residue_fqmul hz, residue_fqmul h11, residue_fqmul h00, residue_pairZetas hp]
  linear_combination (residue (get a (2 * p)) * residue (get b (2 * p)) + residue (get a (2 * p + 1)) *
    residue (get b (2 * p + 1)) * 17 ^ (2 * brv7 p + 1) * (65536 * 169 + 1)) * montgomery_inverse

/-- In MONT's domain the upper coefficient of a pair wraps nowhere. -/
theorem basemulRaw_upper :
    |(get (basemulRaw a b) (2 * p + 1)).toInt| ≤ 6656 ∧
      residue (get (basemulRaw a b) (2 * p + 1)) * 65536 =
        residue (get a (2 * p)) * residue (get b (2 * p + 1)) + residue (get a (2 * p + 1)) * residue (get b (2 * p)) := by
  have h01 := h (2 * p) (by simp) (2 * p + 1) (by simp)
  have h10 := h (2 * p + 1) (by simp) (2 * p) (by simp)
  obtain ⟨hrange, hsum⟩ := addWrap_products (abs_fqmul_le h01) (abs_fqmul_le h10)
  rw [(get_basemulRaw a b hp).2]
  refine ⟨hrange, ?_⟩
  rw [hsum, residue_fqmul h01, residue_fqmul h10]
  linear_combination (residue (get a (2 * p)) * residue (get b (2 * p + 1)) +
    residue (get a (2 * p + 1)) * residue (get b (2 * p))) * montgomery_inverse

end Pair

/-- Settles O28: each pair is R156's two sums, and in MONT's domain nothing wraps and the factor R of the twiddle cancels. -/
theorem basemulMultipliesPairs : Obligations.BasemulMultipliesPairs := by
  unfold Obligations.BasemulMultipliesPairs
  refine fun a b => ⟨fun i hi o zz ho => basemulRaw_block a b hi ho, fun h => ⟨fun i hi => ?_, fun p hp => ⟨?_, ?_⟩⟩⟩
  · obtain ⟨p, hp, rfl | rfl⟩ : ∃ p < 128, i = 2 * p ∨ i = 2 * p + 1 := ⟨i / 2, by omega, by omega⟩
    · exact (basemulRaw_lower hp (h p hp)).1
    · exact (basemulRaw_upper hp (h p hp)).1
  · refine Int.emod_eq_zero_of_dvd ((ZMod.intCast_zmod_eq_zero_iff_dvd _ 3329).mp ?_)
    push_cast [intCast_coefAt]
    exact sub_eq_zero.mpr (basemulRaw_lower hp (h p hp)).2
  · refine Int.emod_eq_zero_of_dvd ((ZMod.intCast_zmod_eq_zero_iff_dvd _ 3329).mp ?_)
    push_cast [intCast_coefAt]
    exact sub_eq_zero.mpr (basemulRaw_upper hp (h p hp)).2

end Sys2Proof.Machine
end

section
/-! SUPPORT. The inverse transform after the forward one (spec/41_ntt.md R159 (a)). Where no sum or difference wraps, a layer is
linear modulo Q; the inverse layer of a block length undoes the forward layer of that length up to a factor 2, so the seven
inverse layers undo the seven forward ones from the inside out. -/

namespace Sys2Proof.Machine

open Sys2Proof.Claims

/-- Every coefficient is in [−B, B]. -/
def Bounded (B : Int) (p : Poly) : Prop := ∀ i < 256, |(get p i).toInt| ≤ B

/-- `r` is `c · f` modulo Q, coefficient by coefficient. -/
def Scaled (c : ZMod 3329) (r f : Poly) : Prop := ∀ i < 256, residue (get r i) = c * residue (get f i)

/-- The block of twiddle `n + b` going forward has the twiddle `2n − 1 − b` going back, and the two multiply to 17^128. -/
theorem brv7_mirror : ∀ n ≤ 64, n ∣ 128 → ∀ b < n, brv7 (n + b) + brv7 (2 * n - 1 - b) = 128 := by decide +kernel

theorem pow_128_eq : (17 : ZMod 3329) ^ 128 = -1 := by decide +kernel

theorem abs_barrett_le (x : Coef) : |(barrett x).toInt| ≤ 3328 := by
  rw [toInt_barrett, abs_le]
  omega

section Layer
variable {len n : Nat} (hn : len * n = 128) (hn64 : n ≤ 64)
include hn hn64

/-- A forward layer without wrapping: `lo + ζ·hi` and `lo − ζ·hi` modulo Q, and 3328 more in size. -/
theorem nttLayer_place {f : Poly} {B : Int} (hf : Bounded B f) (hB : B + 3328 ≤ 32767) {b j : Nat} (hb : b < n) (hj : j < len) :
    (|(get (nttLayer f len) (2 * len * b + j)).toInt| ≤ B + 3328 ∧
      |(get (nttLayer f len) (2 * len * b + j + len)).toInt| ≤ B + 3328) ∧
    residue (get (nttLayer f len) (2 * len * b + j)) = residue (get f (2 * len * b + j)) +
      17 ^ brv7 (n + b) * residue (get f (2 * len * b + j + len)) ∧
    residue (get (nttLayer f len) (2 * len * b + j + len)) = residue (get f (2 * len * b + j)) -
      17 ^ brv7 (n + b) * residue (get f (2 * len * b + j + len)) := by
  have hend := place_lt_256 hn hb hj
  have hk : n + b < 128 := by omega
  have hlo := hf (2 * len * b + j) (by omega)
  have ht := abs_fqmul_zeta_le hk (get f (2 * len * b + j + len))
  have hsize := (add_le_add hlo ht).trans hB
  obtain ⟨hl, hu⟩ := nttLayer_layer hn f b hb j hj
  simp only [nttButterfly] at hl hu
  rw [hl, hu, toInt_addWrap hsize, toInt_subWrap hsize, residue_addWrap hsize, residue_subWrap hsize, residue_fqmul_zeta hk]
  exact ⟨⟨(abs_add_le _ _).trans (add_le_add hlo ht), (abs_sub _ _).trans (add_le_add hlo ht)⟩, rfl, rfl⟩

/-- An inverse layer without wrapping: `lo + hi` and `ζ·(hi − lo)` modulo Q, in [−3328, 3328] again. -/
theorem invnttLayer_place {r : Poly} (hr : Bounded 16383 r) {b j : Nat} (hb : b < n) (hj : j < len) :
    (|(get (invnttLayer r len) (2 * len * b + j)).toInt| ≤ 3328 ∧
      |(get (invnttLayer r len) (2 * len * b + j + len)).toInt| ≤ 3328) ∧
    residue (get (invnttLayer r len) (2 * len * b + j)) =
      residue (get r (2 * len * b + j)) + residue (get r (2 * len * b + j + len)) ∧
    residue (get (invnttLayer r len) (2 * len * b + j + len)) =
      17 ^ brv7 (2 * n - 1 - b) * (residue (get r (2 * len * b + j + len)) - residue (get r (2 * len * b + j))) := by
  have hend := place_lt_256 hn hb hj
  have hk : 2 * n - 1 - b < 128 := by omega
  have hlo := hr (2 * len * b + j) (by omega)
  have hhi := hr (2 * len * b + j + len) hend
  obtain ⟨hl, hu⟩ := invnttLayer_layer hn r b hb j hj
  simp only [invnttButterfly] at hl hu
  rw [hl, hu, residue_barrett, residue_addWrap (by omega), residue_fqmul_zeta hk, residue_subWrap (by omega)]
  exact ⟨⟨abs_barrett_le _, abs_fqmul_zeta_le hk _⟩, rfl, rfl⟩

theorem nttLayer_bounded {f : Poly} {B : Int} (hf : Bounded B f) (hB : B + 3328 ≤ 32767) :
    Bounded (B + 3328) (nttLayer f len) :=
  forall_of_places hn fun _ hb _ hj => (nttLayer_place hn hn64 hf hB hb hj).1

theorem invnttLayer_bounded {r : Poly} (hr : Bounded 16383 r) : Bounded 3328 (invnttLayer r len) :=
  forall_of_places hn fun _ hb _ hj => (invnttLayer_place hn hn64 hr hb hj).1

/-- The inverse layer undoes the forward layer of its block length, up to the factor 2. -/
theorem invnttLayer_scaled {f r : Poly} {B : Int} {c : ZMod 3329} (hf : Bounded B f) (hB : B + 3328 ≤ 32767)
    (hr : Bounded 16383 r) (h : Scaled c r (nttLayer f len)) : Scaled (2 * c) (invnttLayer r len) f :=
  forall_of_places hn fun b hb j hj => by
    have hend := place_lt_256 hn hb hj
    have hmirror : (17 : ZMod 3329) ^ brv7 (n + b) * 17 ^ brv7 (2 * n - 1 - b) = -1 := by
      rw [← pow_add, brv7_mirror n hn64 (Dvd.intro_left len hn) b hb, pow_128_eq]
    obtain ⟨-, hflo, hfhi⟩ := nttLayer_place hn hn64 hf hB hb hj
    obtain ⟨-, hrlo, hrhi⟩ := invnttLayer_place hn hn64 hr hb hj
    rw [hrlo, hrhi, h _ (by omega), h _ hend, hflo, hfhi]
    constructor
    · ring
    · linear_combination -2 * c * residue (get f (2 * len * b + j + len)) * hmirror

end Layer

/-- A block length of the transforms. -/
def BlockLength (len : Nat) : Prop := ∃ n ≤ 64, len * n = 128

/-- Inverse layers in the opposite order undo forward layers, a factor 2 each. -/
theorem foldl_invnttLayer_scaled {lens : List Nat} (hlens : ∀ len ∈ lens, BlockLength len) {f r : Poly} {B : Int}
    {c : ZMod 3329} (hf : Bounded B f) (hB : B + 3328 * lens.length ≤ 32767) (hr : Bounded 16383 r)
    (h : Scaled c r (lens.foldl nttLayer f)) :
    Bounded 16383 (lens.reverse.foldl invnttLayer r) ∧
      Scaled (2 ^ lens.length * c) (lens.reverse.foldl invnttLayer r) f := by
  induction lens generalizing f B with
  | nil => exact ⟨hr, by simpa using h⟩
  | cons len lens ih =>
    obtain ⟨n, hn64, hn⟩ := hlens len List.mem_cons_self
    rw [List.length_cons] at hB
    push_cast at hB
    have hB' : B + 3328 ≤ 32767 := by omega
    obtain ⟨hinner, hscaled⟩ := ih (fun x hx => hlens x (List.mem_cons_of_mem len hx))
      (nttLayer_bounded hn hn64 hf hB') (by omega) h
    rw [List.reverse_cons, List.foldl_append, List.foldl_cons, List.foldl_nil, List.length_cons, pow_succ', mul_assoc]
    exact ⟨fun i hi => (invnttLayer_bounded hn hn64 hinner i hi).trans (by decide),
      invnttLayer_scaled hn hn64 hf hB' hinner hscaled⟩

/-- The last multiplication, by F_INV = 1441 (R154). -/
theorem residue_fqmul_inverse (x : Coef) : residue (fqmul x 1441) = residue x * 1441 * 169 := by
  have h : |x.toInt * (1441 : Coef).toInt| ≤ 109084671 := by
    rw [mul_comm]
    exact abs_toInt_mul_le (by decide) x
  rw [residue_fqmul h]
  rfl

/-- The seven factors 2 of the layers with F_INV and R^−1 make R = 2285. -/
theorem inverse_factor : (2 ^ 7 * 1 * 1441 * 169 : ZMod 3329) = 2285 := by decide

/-- Settles O30: the seven layers undo each other with the factor 2^7, and F_INV = 1441 turns it into R = 2285. -/
theorem inverseTransformScales : Obligations.InverseTransformScales := by
  unfold Obligations.InverseTransformScales
  intro f hf i hi
  have hlens : ∀ len ∈ [128, 64, 32, 16, 8, 4, 2], BlockLength len := by
    unfold BlockLength
    decide +kernel
  have hbounded : Bounded 3328 f := fun i hi => by
    obtain ⟨hlo, hhi⟩ := hf i hi
    rw [coefAt_eq_toInt_get] at hlo hhi
    exact abs_le.mpr ⟨by omega, by omega⟩
  have hntt : Bounded 16383 (nttF f) := fun i hi => by
    rw [nttF, reducePoly, get_mapVec _ _ hi]
    exact (abs_barrett_le _).trans (by decide)
  have hreduced : Scaled 1 (nttF f) ([128, 64, 32, 16, 8, 4, 2].foldl nttLayer f) := fun i hi => by
    rw [nttF, reducePoly, get_mapVec _ _ hi, residue_barrett, one_mul]
  have hscaled : residue (get ([2, 4, 8, 16, 32, 64, 128].foldl invnttLayer (nttF f)) i) = 2 ^ 7 * 1 * residue (get f i) :=
    (foldl_invnttLayer_scaled hlens hbounded (by decide) hntt hreduced).2 i hi
  rw [coefAt_eq_toInt_get, invnttF, get_mapVec _ _ hi, invnttFinal, toInt_barrett]
  refine residue_eq_iff.mp ?_
  rw [residue_fqmul_inverse, hscaled, Int.cast_mul, intCast_coefAt]
  linear_combination residue (get f i) * inverse_factor

end Sys2Proof.Machine
end

section
/-! SUPPORT. The commands of the slot forms P2 and P3 (spec/44_polyvec.md R230, spec/70_reset_and_hazards.md R301, R302): what
a completion step with such an effect writes, and the transform and product commands (spec/41_ntt.md R153, R155, R157, R158). -/

namespace Sys2Proof.Machine

open Sys2Proof.Claims

/-! ## The slot forms -/

/-- A slot range that check 5 of R252 looks at ends by slot 31. -/
theorem Instr.slotRange_le {k : BitVec 4} {i : Instr} {r n : Nat} (h : i.wellFormed k = true) (hr : (r, n) ∈ slotRanges k i) :
    r + n ≤ 32 := by
  obtain ⟨⟨-, hfit⟩, -⟩ : (widthLegal i = true ∧ slotsFit k i = true) ∧ bufFits k i = true := by
    simpa [Instr.wellFormed] using h
  simpa using List.all_eq_true.mp hfit (r, n) hr

/-- A command whose effect is to write `n` polynomials to the slots from `rd` up. -/
theorem writesSlots_of_effect {i : Instr} {s : State} {rd n : Nat} {ps : List Poly} {result : Nat → Poly → Prop}
    (hwf : i.wellFormed s.build.k = true) (hrange : (rd, n) ∈ slotRanges s.build.k i)
    (heffect : effectOf i s = some { s with slots := writeSlots s.slots rd ps }) (hlen : ps.length = n)
    (hresult : ∀ j (hj : j < ps.length), result j ps[j]) : WritesSlots i s rd n result := by
  subst hlen
  refine ⟨_, exec_eq_next.mpr ⟨hwf, _, heffect, rfl⟩, rfl, fun x hx => ?_, fun j hj =>
    ⟨ps[j], readPoly_writeSlots hj (Instr.slotRange_le hwf hrange), hresult j hj⟩⟩
  rw [complete_slots, getElem?_writeSlots, if_neg (by omega)]

theorem zipWith3_map (f : Poly → Poly → Poly → Poly) (c a b : Nat → Poly) (l : List Nat) :
    List.zipWith3 f (l.map c) (l.map a) (l.map b) = l.map fun j => f (c j) (a j) (b j) := by
  induction l with
  | nil => rfl
  | cons j l ih => simp [List.zipWith3, ih]

section Forms
variable {i : Instr} {s : State} {v : Bool} {rd rs1 rs2 : SlotNo} {a b c : Nat → Poly} {result : Nat → Poly → Prop}
  (hwf : i.wellFormed s.build.k = true) (hrange : (rd.toNat, s.count v) ∈ slotRanges s.build.k i)
include hwf hrange

/-- Format P2 (R230). -/
theorem writesSlots_slotOp1 {f : Poly → Poly} (hi : effectOf i = slotOp1 f v rd rs1)
    (ha : SlotsHold s rs1.toNat (s.count v) a) (hresult : ∀ j, result j (f (a j))) :
    WritesSlots i s rd.toNat (s.count v) result :=
  writesSlots_of_effect hwf hrange (by rw [hi]; exact slotOp1_eq_some.mpr ⟨_, readSlots_of_reads ha, rfl⟩) (by simp)
    fun j _ => by simpa using hresult j

/-- Format P3 (R230). -/
theorem writesSlots_slotOp2 {f : Poly → Poly → Poly} (hi : effectOf i = slotOp2 f v rd rs1 rs2)
    (ha : SlotsHold s rs1.toNat (s.count v) a) (hb : SlotsHold s rs2.toNat (s.count v) b)
    (hresult : ∀ j, result j (f (a j) (b j))) : WritesSlots i s rd.toNat (s.count v) result :=
  writesSlots_of_effect hwf hrange
    (by rw [hi]; exact slotOp2_eq_some.mpr ⟨_, _, readSlots_of_reads ha, readSlots_of_reads hb, rfl⟩) (by simp)
    fun j _ => by simpa using hresult j

/-- Format P3 with the destination, as it was, for a third source (R158, R302). -/
theorem writesSlots_slotOp3 {f : Poly → Poly → Poly → Poly} (hi : effectOf i = slotOp3 f v rd rs1 rs2)
    (hc : SlotsHold s rd.toNat (s.count v) c) (ha : SlotsHold s rs1.toNat (s.count v) a)
    (hb : SlotsHold s rs2.toNat (s.count v) b) (hresult : ∀ j, result j (f (c j) (a j) (b j))) :
    WritesSlots i s rd.toNat (s.count v) result := by
  refine writesSlots_of_effect hwf hrange (ps := (List.range (s.count v)).map fun j => f (c j) (a j) (b j)) ?_ (by simp)
    fun j _ => by simpa using hresult j
  rw [hi, ← zipWith3_map]
  exact slotOp3_eq_some.mpr ⟨_, _, _, readSlots_of_reads hc, readSlots_of_reads ha, readSlots_of_reads hb, rfl⟩

end Forms

/-! ## The commands -/

/-- Settles O21: NTT's effect is NTT_F on every source, which is the pseudocode's loop and canonical. -/
theorem nttWritesTransform : Obligations.NttWritesTransform := by
  unfold Obligations.NttWritesTransform
  exact fun v rd rs1 s a hwf ha => writesSlots_slotOp1 hwf List.mem_cons_self rfl ha fun j =>
    ⟨(nttRefinesPseudocode (a j)).1, (nttRefinesPseudocode (a j)).2⟩

/-- Settles O22: INVNTT's effect is INVNTT_F on every source, which is the pseudocode's loop and canonical. -/
theorem invnttWritesTransform : Obligations.InvnttWritesTransform := by
  unfold Obligations.InvnttWritesTransform
  exact fun v rd rs1 s a hwf ha => writesSlots_slotOp1 hwf List.mem_cons_self rfl ha fun j =>
    ⟨(invnttRefinesPseudocode (a j)).1, (invnttRefinesPseudocode (a j)).2⟩

/-- Settles O23: PMUL's effect is BARRETT of the product of the sources. -/
theorem pmulWritesProducts : Obligations.PmulWritesProducts := by
  unfold Obligations.PmulWritesProducts
  exact fun v rd rs1 rs2 s a b hwf ha hb => writesSlots_slotOp2 hwf List.mem_cons_self rfl ha hb fun j i hi =>
    coefAt_reducePoly (basemulRaw (a j) (b j)) hi

theorem coefAt_addPoly (p q : Poly) {i : Nat} (hi : i < 256) :
    coefAt (addPoly p q) i = (coefAt p i + coefAt q i).bmod (2 ^ 16) := by
  simp [coefAt, addPoly, hi, addWrap, s16]

/-- Settles O24: PMAC's effect is BARRETT of the wrapping sum of the old accumulator and the product. -/
theorem pmacAccumulates : Obligations.PmacAccumulates := by
  unfold Obligations.PmacAccumulates
  intro v rd rs1 rs2 s c a b hwf hc ha hb
  refine writesSlots_slotOp3 hwf List.mem_cons_self rfl hc ha hb fun j i hi => ?_
  rw [macPoly, coefAt_reducePoly _ hi, coefAt_addPoly _ _ hi]

end Sys2Proof.Machine
end

section
/-! SUPPORT. The centered-binomial sampler (spec/42_sampler.md R180, R181): the word-wise counts of adjacent bits, the
coefficients of consecutive bytes, and the completion step of a command that fills slots from BUF (spec/44_polyvec.md
R231). -/

namespace Sys2Proof.Machine

open Sys2Proof.Claims

/-! ## Counting adjacent bits in a word (R180) -/

/-- The two-bit field at bit `k` of a word. -/
theorem toNat_twoBits (w : Word) (k : Nat) :
    ((w >>> k) &&& 3).toNat = (w.getLsbD k).toNat + 2 * (w.getLsbD (k + 1)).toNat := by
  have hmask : ((w >>> k) &&& 3).toNat = w.toNat >>> k % 4 := Nat.and_two_pow_sub_one_eq_mod _ 2
  rw [hmask, ← BitVec.testBit_toNat, ← BitVec.testBit_toNat, Nat.toNat_testBit, Nat.toNat_testBit,
    Nat.shiftRight_eq_div_pow, Nat.pow_succ, ← Nat.div_div_eq_div_mul]
  omega

/-- The mask of R180 selects the even bits of a word. -/
theorem getLsbD_evenMask : ∀ i < 32, (0x55555555#32).getLsbD i = decide (i % 2 = 0) := by decide

/-- In the sum of two words without odd bits no carry enters an even bit: the carries stay in the pairs. -/
theorem carry_of_evenBits {x y : Word} (hx : ∀ i, i % 2 = 1 → x.getLsbD i = false)
    (hy : ∀ i, i % 2 = 1 → y.getLsbD i = false) {k : Nat} (hk : k % 2 = 0) : BitVec.carry k x y false = false := by
  cases k with
  | zero => exact BitVec.carry_zero
  | succ k => rw [BitVec.carry_succ, hx k (by omega), hy k (by omega), Bool.atLeastTwo_false_left, Bool.false_and]

/-- The sum of two words without odd bits adds their bits pair by pair. -/
theorem toNat_twoBits_add {x y : Word} (hx : ∀ i, i % 2 = 1 → x.getLsbD i = false)
    (hy : ∀ i, i % 2 = 1 → y.getLsbD i = false) {k : Nat} (hk : k % 2 = 0) (hlt : k < 32) :
    (((x + y) >>> k) &&& 3).toNat = (x.getLsbD k).toNat + (y.getLsbD k).toNat := by
  rw [toNat_twoBits, BitVec.getLsbD_add hlt, BitVec.getLsbD_add (by omega), BitVec.carry_succ,
    carry_of_evenBits hx hy hk, hx (k + 1) (by omega), hy (k + 1) (by omega)]
  cases x.getLsbD k <;> cases y.getLsbD k <;> rfl

theorem pairCounts_eq (w : Word) : pairCounts w = (w &&& 0x55555555#32) + ((w >>> 1) &&& 0x55555555#32) := rfl

theorem getLsbD_and_evenMask (w : Word) (i : Nat) :
    (w &&& 0x55555555#32).getLsbD i = (w.getLsbD i && decide (i % 2 = 0)) := by
  by_cases hi : i < 32
  · rw [BitVec.getLsbD_and, getLsbD_evenMask i hi]
  · rw [BitVec.getLsbD_of_ge _ _ (by omega), BitVec.getLsbD_of_ge w _ (by omega), Bool.false_and]

theorem getLsbD_and_evenMask_odd (w : Word) (i : Nat) (hi : i % 2 = 1) : (w &&& 0x55555555#32).getLsbD i = false := by
  rw [getLsbD_and_evenMask, decide_eq_false (by omega), Bool.and_false]

/-- Each two-bit field of `pairCounts` is the number of ones in that bit pair of the word. -/
theorem toNat_twoBits_pairCounts (w : Word) {k : Nat} (hk : k % 2 = 0) (hlt : k < 32) :
    ((pairCounts w >>> k) &&& 3).toNat = (w.getLsbD k).toNat + (w.getLsbD (k + 1)).toNat := by
  rw [pairCounts_eq, toNat_twoBits_add (getLsbD_and_evenMask_odd w) (getLsbD_and_evenMask_odd (w >>> 1)) hk hlt,
    getLsbD_and_evenMask, getLsbD_and_evenMask, BitVec.getLsbD_ushiftRight, Nat.add_comm 1 k]
  simp [hk]

/-! ## The coefficient of a nibble (R180) -/

/-- (bit0 + bit1) − (bit2 + bit3) of the low nibble (`i` even) or the high nibble (`i` odd) of a byte. -/
def nibbleSample (x : Byte) (i : Nat) : Int :=
  let bit := fun u => ((x.getLsbD (4 * (i % 2) + u)).toNat : Int)
  (bit 0 + bit 1) - (bit 2 + bit 3)

theorem nibbleSample_bounds (x : Byte) (i : Nat) : -2 ≤ nibbleSample x i ∧ nibbleSample x i ≤ 2 := by
  have hbit := fun u => (x.getLsbD (4 * (i % 2) + u)).toNat_le
  have h0 := hbit 0
  have h1 := hbit 1
  have h2 := hbit 2
  have h3 := hbit 3
  simp only [nibbleSample]
  omega

/-- Bit `8·m + u` of a little-endian word is bit `u` of its byte `m`. -/
theorem getLsbD_littleEndian (b0 b1 b2 b3 : Byte) {m u : Nat} (hm : m < 4) (hu : u < 8) :
    (b3 ++ b2 ++ b1 ++ b0 : Word).getLsbD (8 * m + u) = ([b0, b1, b2, b3].getD m 0).getLsbD u := by
  have habove : ∀ c, ¬u + (8 + c) < 8 := by omega
  simp only [BitVec.getLsbD_append]
  interval_cases m <;> simp [hu, Nat.add_sub_assoc, Nat.add_comm _ u, habove 8, habove 16]

/-- The word-wise coefficient of nibble `j` from the word's own bits; nothing of other nibbles is left. -/
theorem nibbleCoef_pairCounts (w : Word) {j : Nat} (hj : j < 8) :
    nibbleCoef (pairCounts w) j =
      s16 (((w.getLsbD (4 * j)).toNat + (w.getLsbD (4 * j + 1)).toNat) -
        ((w.getLsbD (4 * j + 2)).toNat + (w.getLsbD (4 * j + 3)).toNat)) := by
  simp only [nibbleCoef]
  rw [toNat_twoBits_pairCounts w (by omega) (by omega), toNat_twoBits_pairCounts w (by omega) (by omega),
    Nat.cast_add, Nat.cast_add]

/-- Nibble `j` of a little-endian word is a nibble of its byte `j / 2`. -/
theorem toInt_nibbleCoef_pairCounts (b0 b1 b2 b3 : Byte) {j : Nat} (hj : j < 8) :
    (nibbleCoef (pairCounts (b3 ++ b2 ++ b1 ++ b0)) j).toInt = nibbleSample ([b0, b1, b2, b3].getD (j / 2) 0) j := by
  have hbit : ∀ u < 4, (b3 ++ b2 ++ b1 ++ b0 : Word).getLsbD (4 * j + u) =
      ([b0, b1, b2, b3].getD (j / 2) 0).getLsbD (4 * (j % 2) + u) := by
    intro u hu
    rw [← getLsbD_littleEndian b0 b1 b2 b3 (by omega) (by omega)]
    congr 1
    omega
  obtain ⟨hlo, hhi⟩ := nibbleSample_bounds ([b0, b1, b2, b3].getD (j / 2) 0) j
  rw [nibbleCoef_pairCounts _ hj, ← Nat.add_zero (4 * j), hbit 0 (by decide), Nat.add_zero, hbit 1 (by decide),
    hbit 2 (by decide), hbit 3 (by decide)]
  exact toInt_s16 ((by decide : (-32768 : Int) ≤ -2).trans hlo) (hhi.trans (by decide))

/-- Coefficient `i` of consecutive bytes is that of its own nibble, in byte `i / 2`. -/
theorem toInt_getD_cbd2Words {n : Nat} {b : List Byte} (hb : b.length = 4 * n) {i : Nat} (hi : i < 8 * n) :
    ((cbd2Words b).getD i 0).toInt = nibbleSample (b.getD (i / 2) 0) i := by
  induction n generalizing b i with
  | zero => omega
  | succ n ih =>
    match b, hb with
    | b0 :: b1 :: b2 :: b3 :: bs, hb =>
      simp only [List.length_cons] at hb
      have hlen : ((List.range 8).map (nibbleCoef (pairCounts (b3 ++ b2 ++ b1 ++ b0)))).length = 8 := by simp
      have hsplit : b0 :: b1 :: b2 :: b3 :: bs = [b0, b1, b2, b3] ++ bs := rfl
      rw [cbd2Words, hsplit]
      by_cases hi8 : i < 8
      · rw [List.getD_append _ _ _ _ (hi8.trans_eq hlen.symm), List.getD_append _ _ _ _ (by simp; omega),
          ← toInt_nibbleCoef_pairCounts b0 b1 b2 b3 hi8]
        simp [hi8]
      · obtain ⟨k, rfl⟩ := Nat.exists_eq_add_of_le (Nat.le_of_not_lt hi8)
        rw [List.getD_append_right _ _ _ _ (hlen.trans_le (by omega)), hlen, Nat.add_sub_cancel_left,
          ih (by omega) (by omega), List.getD_append_right _ _ _ _ (by simp; omega)]
        simp only [nibbleSample, List.length_cons, List.length_nil]
        rw [show (8 + k) / 2 - 4 = k / 2 by omega, show (8 + k) % 2 = k % 2 by omega]

theorem coefAt_ofList {l : List Coef} (h : l.length = 256) (i : Nat) :
    coefAt (Poly.ofList l) i = (l.getD i 0).toInt := by
  rw [coefAt, getElem?_ofList h, List.getD_eq_getElem?_getD]

theorem coefAt_cbd2F {b : List Byte} (hb : b.length = 128) {i : Nat} (hi : i < 256) :
    coefAt (cbd2F b) i = nibbleSample (b.getD (i / 2) 0) i := by
  rw [cbd2F, coefAt_ofList (cbd2Words_length 32 b hb), toInt_getD_cbd2Words (n := 32) hb hi]

/-- Settles O37: the carries of the word-wise counts stay in their bit pairs, so nibbles do not disturb each other. -/
theorem samplerNibbles : Obligations.SamplerNibbles := by
  unfold Obligations.SamplerNibbles
  intro b hb i hi
  rw [coefAt_cbd2F hb hi]
  exact ⟨rfl, nibbleSample_bounds _ i⟩

/-! ## The form from BUF to slots (R231) -/

/-- The `j`-th image of `len` bytes in a sequence of bytes. -/
def imageAt (b : Nat → Byte) (len j : Nat) : List Byte := (List.range len).map fun u => b (len * j + u)

@[simp] theorem imageAt_length (b : Nat → Byte) (len j : Nat) : (imageAt b len j).length = len := by simp [imageAt]

theorem getD_imageAt (b : Nat → Byte) {len u : Nat} (hu : u < len) (j : Nat) :
    (imageAt b len j).getD u 0 = b (len * j + u) := by
  simp [imageAt, hu]

/-- Reading consecutive images whose bytes are known. -/
theorem readImages_of_reads {m : Memory} {len a n : Nat} {b : Nat → Byte}
    (h : ∀ x < n * len, Memory.read m (a + x) = some (b x)) :
    readImages m len a n = some ((List.range n).map (imageAt b len)) := by
  refine readImages_eq_some.mpr ⟨by simp, fun j hj => ⟨imageAt b len j, by simp [hj], ?_⟩⟩
  refine Memory.readBytes_eq_some.mpr ⟨imageAt_length b len j, fun u hu => ?_⟩
  rw [Nat.add_assoc, h (len * j + u) (by nlinarith)]
  simp [imageAt, hu]

/-- Formats B and BD from BUF to slots: slot `p + j` from the `j`-th image (R231). -/
theorem writesSlots_bufToSlots {i : Instr} {s : State} {v : Bool} {p : SlotNo} {addr : BufAddr} {len : Nat}
    {f : List Byte → Poly} {b : Nat → Byte} {result : Nat → Poly → Prop} (hwf : i.wellFormed s.build.k = true)
    (hrange : (p.toNat, s.count v) ∈ slotRanges s.build.k i) (hi : effectOf i = bufToSlots f len v p addr)
    (hb : BytesHold s addr.toNat (s.count v * len) b) (hresult : ∀ j, result j (f (imageAt b len j))) :
    WritesSlots i s p.toNat (s.count v) result :=
  writesSlots_of_effect hwf hrange (by rw [hi]; exact bufToSlots_eq_some.mpr ⟨_, readImages_of_reads hb, rfl⟩) (by simp)
    fun j _ => by simpa using hresult j

/-- Settles O36: CBD2's effect is CBD2_F on every image, coefficient by coefficient from its own nibble. -/
theorem cbd2SamplesNibbles : Obligations.Cbd2SamplesNibbles := by
  unfold Obligations.Cbd2SamplesNibbles
  intro v p addr s b hwf hb
  refine writesSlots_bufToSlots hwf List.mem_cons_self rfl hb fun j i hi => ?_
  rw [coefAt_cbd2F (imageAt_length b 128 j) hi, getD_imageAt b (by omega)]
  rfl

end Sys2Proof.Machine
end

section
/-! SUPPORT. The coefficient-wise commands (spec/43_poly.md R190 to R194): what each writes at an index, on the slot forms
of spec/44_polyvec.md R230. -/

namespace Sys2Proof.Machine

open Sys2Proof.Claims

/-- Settles O16: PADD's effect is the wrapping sum of the sources, read whole before anything is written. -/
theorem paddWrapsSums : Obligations.PaddWrapsSums := by
  unfold Obligations.PaddWrapsSums
  exact fun v rd rs1 rs2 s a b hwf ha hb => writesSlots_slotOp2 hwf List.mem_cons_self rfl ha hb fun j i hi =>
    coefAt_addPoly (a j) (b j) hi

theorem coefAt_subPoly (p q : Poly) {i : Nat} (hi : i < 256) :
    coefAt (subPoly p q) i = (coefAt p i - coefAt q i).bmod (2 ^ 16) := by
  simp [coefAt, subPoly, hi, subWrap, s16]

/-- Settles O17: PSUB's effect is the wrapping difference of the sources, read whole before anything is written. -/
theorem psubWrapsDifferences : Obligations.PsubWrapsDifferences := by
  unfold Obligations.PsubWrapsDifferences
  exact fun v rd rs1 rs2 s a b hwf ha hb => writesSlots_slotOp2 hwf List.mem_cons_self rfl ha hb fun j i hi =>
    coefAt_subPoly (a j) (b j) hi

/-- Settles O18: PREDUCE's effect is BARRETT on every coefficient, which is its residue. -/
theorem preduceWritesResidues : Obligations.PreduceWritesResidues := by
  unfold Obligations.PreduceWritesResidues
  exact fun v rd rs1 s a hwf ha => writesSlots_slotOp1 hwf List.mem_cons_self rfl ha fun j i hi =>
    coefAt_reducePoly (a j) hi

theorem coefAt_csubqPoly (p : Poly) {i : Nat} (hi : i < 256) :
    coefAt (csubqPoly p) i = if 3329 ≤ coefAt p i then coefAt p i - 3329 else coefAt p i := by
  rw [coefAt_eq_toInt_get, csubqPoly, get_mapVec _ _ hi, toInt_csubq]
  rfl

/-- Settles O19: PCSUBQ's effect is CSUBQ on every coefficient. -/
theorem pcsubqSubtractsOnce : Obligations.PcsubqSubtractsOnce := by
  unfold Obligations.PcsubqSubtractsOnce
  exact fun v rd rs1 s a hwf ha => writesSlots_slotOp1 hwf List.mem_cons_self rfl ha fun j i hi =>
    coefAt_csubqPoly (a j) hi

/-- The factor 1353 = R^2 keeps every 16-bit coefficient in MONT's domain, and MONT takes one R of it away (R194). -/
theorem toInt_toMont (x : Coef) : (toMont x).toInt = x.toInt * 2 ^ 16 % 3329 := by
  have hlo := le_toInt_coef x
  have hhi := toInt_coef_le x
  have hmont : (mont (x.toInt * 1353)).toInt % 3329 = x.toInt * 1353 * 169 % 3329 :=
    toInt_mont_emod (by omega) (by omega)
  rw [toMont, toInt_barrett, hmont]
  omega

theorem coefAt_toMontPoly (p : Poly) {i : Nat} (hi : i < 256) :
    coefAt (toMontPoly p) i = coefAt p i * 2 ^ 16 % 3329 := by
  rw [coefAt_eq_toInt_get, toMontPoly, get_mapVec _ _ hi, toInt_toMont]
  rfl

/-- Settles O20: TOMONT's effect takes every coefficient to Montgomery form. -/
theorem tomontScales : Obligations.TomontScales := by
  unfold Obligations.TomontScales
  exact fun v rd rs1 s a hwf ha => writesSlots_slotOp1 hwf List.mem_cons_self rfl ha fun j i hi =>
    coefAt_toMontPoly (a j) hi

end Sys2Proof.Machine
end

section
/-! SUPPORT. Compression and decompression of one coefficient (spec/43_poly.md R197, R198, R201, R202) as roundings of
integers. -/

namespace Sys2Proof.Machine

open Sys2Proof.Claims

/-! ## COMPRESS_d (R197) -/

/-- BARRETT's result is not negative, so it is the residue as an unsigned number too. -/
theorem toNat_barrett (x : Coef) : ((barrett x).toNat : Int) = x.toInt % 3329 := by
  have hint := toInt_barrett x
  have hlt := (barrett x).isLt
  rw [BitVec.toInt_eq_toNat_cond] at hint
  split_ifs at hint <;> omega

/-- round(x'·2^d / Q) of the residue x' of a coefficient, before it is taken modulo 2^d (R197). -/
def compressRound (d : Nat) (x : Coef) : Int := ((x.toInt % 3329) * 2 ^ d + 1664) / 3329

theorem toNat_compressCoef {d : Nat} (hd : d ≤ 16) (x : Coef) :
    ((compressCoef d x).toNat : Int) = compressRound d x % 2 ^ d := by
  have hfits : ((barrett x).toNat * 2 ^ d + 1664) / 3329 % 2 ^ d < 2 ^ 16 :=
    (Nat.mod_lt _ (Nat.two_pow_pos d)).trans_le (Nat.pow_le_pow_right (by decide) hd)
  rw [compressCoef, Nat.shiftLeft_eq, Nat.and_two_pow_sub_one_eq_mod, BitVec.toNat_ofNat, Nat.mod_eq_of_lt hfits,
    compressRound, ← toNat_barrett]
  push_cast
  rfl

/-- The rounding is off by less than one half: Q is odd, so twice the difference is at most Q − 1 (R197). -/
theorem compressRound_near (d : Nat) (x : Coef) :
    |2 * (compressRound d x * 3329 - (x.toInt % 3329) * 2 ^ d)| < 3329 := by
  rw [abs_lt, compressRound]
  omega

/-- Settles O38: the shift and the mask are 2^d, and adding 1664 = Q div 2 before the division rounds to the nearest. -/
theorem compressRounding : Obligations.CompressRounding := by
  unfold Obligations.CompressRounding
  intro d x ⟨_, hd⟩
  have hnat := toNat_compressCoef (hd.trans (by decide)) x
  exact ⟨hnat, compressRound d x, compressRound_near d x, hnat⟩

/-! ## DECOMPRESS_d (R198) -/

theorem two_pow_eq_two_mul {d : Nat} (h : LegalWidth d) : 2 ^ d = 2 * 2 ^ (d - 1) := by
  rw [Nat.mul_comm, Nat.two_pow_pred_mul_two h.1]

theorem two_pow_pred_le {d : Nat} (h : LegalWidth d) : 2 ^ (d - 1) ≤ 1024 :=
  Nat.pow_le_pow_right (n := 2) (by decide) (show d - 1 ≤ 10 from Nat.sub_le_sub_right h.2 1)

/-- t·Q / 2^d rounded to the nearest with an exact half rounded up (R198). -/
def decompressRound (d t : Nat) : Nat := (t * 3329 + 2 ^ (d - 1)) / 2 ^ d

theorem decompressRound_near (d t : Nat) :
    2 ^ d * decompressRound d t ≤ t * 3329 + 2 ^ (d - 1) ∧
      t * 3329 + 2 ^ (d - 1) < 2 ^ d * decompressRound d t + 2 ^ d :=
  ⟨Nat.mul_div_le _ _, Nat.lt_mul_div_succ _ (Nat.two_pow_pos d)⟩

/-- The largest field, 2^d − 1, falls short of Q by more than one half. -/
theorem decompressRound_lt {d t : Nat} (h : LegalWidth d) (ht : t < 2 ^ d) : decompressRound d t < 3329 := by
  have hhalf := two_pow_pred_le h
  rw [decompressRound, Nat.div_lt_iff_lt_mul (Nat.two_pow_pos d)]
  omega

theorem toNat_decompressCoef {d : Nat} {t : Coef} (h : LegalWidth d) (ht : t.toNat < 2 ^ d) :
    (decompressCoef d t).toNat = decompressRound d t.toNat := by
  have hlt : decompressRound d t.toNat < 2 ^ 16 := (decompressRound_lt h ht).trans (by decide)
  rw [decompressCoef, Nat.one_shiftLeft, Nat.shiftRight_eq_div_pow, BitVec.toNat_ofNat]
  exact Nat.mod_eq_of_lt hlt

/-- Settles O39: adding 2^(d−1) before the division by 2^d rounds to the nearest with halves up. -/
theorem decompressRounding : Obligations.DecompressRounding := by
  unfold Obligations.DecompressRounding
  intro d t hd ht
  obtain ⟨hlo, hhi⟩ := decompressRound_near d t.toNat
  have htwo := two_pow_eq_two_mul hd
  have hdouble : 2 ^ (d + 1) * decompressRound d t.toNat = 2 * (2 ^ d * decompressRound d t.toNat) := by ring
  rw [toNat_decompressCoef hd ht, hdouble]
  exact ⟨rfl, decompressRound_lt hd ht, by linarith, by linarith⟩

/-! ## The round trip (R202) -/

/-- The circular distance modulo Q of a coefficient's residue and its decompressed compressed value (R202). -/
def roundTripError (d : Nat) (x : Coef) : Int :=
  min (((decompressCoef d (compressCoef d x)).toInt - x.toInt % 3329) % 3329)
    ((x.toInt % 3329 - (decompressCoef d (compressCoef d x)).toInt) % 3329)

/-- A circular distance is at most every distance of representatives. -/
theorem circularDistance_le (y x k : Int) : min ((y - x) % 3329) ((x - y) % 3329) ≤ |y - x + 3329 * k| := by
  rcases abs_cases (y - x + 3329 * k) with ⟨habs, hsign⟩ | ⟨habs, hsign⟩
  · exact min_le_of_left_le (by omega)
  · exact min_le_of_right_le (by omega)

theorem toInt_decompress_compress {d : Nat} (h : LegalWidth d) (x : Coef) :
    (decompressCoef d (compressCoef d x)).toInt = (decompressRound d (compressCoef d x).toNat : Int) := by
  have hnat := toNat_compressCoef (h.2.trans (by decide)) x
  have ht : (compressCoef d x).toNat < 2 ^ d := by
    have := Int.emod_lt_of_pos (compressRound d x) (b := 2 ^ d) (by positivity)
    exact_mod_cast hnat.trans_lt this
  have hlt := decompressRound_lt h ht
  have hy := toNat_decompressCoef h ht
  rw [BitVec.toInt_eq_toNat_of_lt (by omega), hy]

/-- The two roundings together are off by at most (Q + 2^d) / 2^(d+1): half a unit of 2^d and one half of a coefficient.
What COMPRESS drops modulo 2^d is a multiple of Q after the round trip. -/
theorem roundTripError_le {d : Nat} (h : LegalWidth d) (x : Coef) :
    roundTripError d x ≤ (3329 + 2 ^ d) / 2 ^ (d + 1) := by
  rw [roundTripError, toInt_decompress_compress h]
  refine (circularDistance_le _ _ (compressRound d x / 2 ^ d)).trans ?_
  have hnat := toNat_compressCoef (h.2.trans (by decide)) x
  have hfield := Int.emod_add_mul_ediv (compressRound d x) (2 ^ d)
  obtain ⟨hclo, hchi⟩ := abs_lt.mp (compressRound_near d x)
  obtain ⟨hdlo, hdhi⟩ := decompressRound_near d (compressCoef d x).toNat
  have htwo := two_pow_eq_two_mul h
  zify at hdlo hdhi htwo
  rw [hnat] at hdlo hdhi
  rw [Int.pow_succ, Int.le_ediv_iff_mul_le (by positivity)]
  rw [← abs_of_pos (show (0 : Int) < 2 ^ d * 2 by positivity), ← abs_mul, abs_le]
  constructor <;> linarith

/-- A coefficient at which the error of width `d` is the largest. -/
def farthestCoef (d : Nat) : Coef := [832, 416, 208, 104, 52, 26, 13, 1658, 3, 5, 1].getD (d - 1) 0

theorem roundTripError_farthestCoef : ∀ d ∈ List.range' 1 11,
    roundTripError d (farthestCoef d) = (3329 + 2 ^ d) / 2 ^ (d + 1) := by decide +kernel

/-- Settles O40: the bound is the sum of the two roundings' errors, and `farthestCoef` reaches it. -/
theorem compressionError : Obligations.CompressionError := by
  unfold Obligations.CompressionError
  exact fun d hd => ⟨roundTripError_le hd, farthestCoef d,
    roundTripError_farthestCoef d (List.mem_range'_1.mpr ⟨hd.1, Nat.lt_succ_of_le hd.2⟩)⟩

/-! ## Message coding (R201) -/

theorem compressCoef_one (x : Coef) :
    compressCoef 1 x = if 833 ≤ x.toInt % 3329 ∧ x.toInt % 3329 ≤ 2496 then 1 else 0 := by
  have hnat := toNat_compressCoef (d := 1) (by decide) x
  rw [compressRound] at hnat
  apply BitVec.eq_of_toNat_eq
  split_ifs with h
  · show _ = 1
    omega
  · show _ = 0
    omega

/-- Settles O41: at d = 1 the formula of R197 rounds to 1 exactly from 833 to 2496, and to 2, which wraps to 0, above. -/
theorem messageCoding : Obligations.MessageCoding := by
  unfold Obligations.MessageCoding
  exact ⟨by decide, by decide, compressCoef_one⟩

end Sys2Proof.Machine
end

section
/-! SUPPORT. The commands between slots and BUF (spec/43_poly.md R195, R196, R199, R200): where the bits of each value
stand in consecutive images (spec/20_memory.md R66, spec/44_polyvec.md R231). -/

namespace Sys2Proof.Machine

open Sys2Proof.Claims

/-! ## The form from slots to BUF (R231) -/

/-- Byte `u` of image `j` in consecutive images of `len` bytes each. -/
theorem getElem?_flatten_map {f : Poly → List Byte} {len : Nat} (hf : ∀ q, (f q).length = len) (as : List Poly) (j : Nat)
    {u : Nat} (hu : u < len) : (as.map f).flatten[len * j + u]? = as[j]?.bind fun q => (f q)[u]? := by
  induction as generalizing j with
  | nil => simp
  | cons q as ih =>
    rw [List.map_cons, List.flatten_cons]
    cases j with
    | zero => simp [List.getElem?_append_left, hf, hu]
    | succ j =>
      rw [List.getElem?_append_right (by rw [hf]; nlinarith), hf, show len * (j + 1) + u - len = len * j + u by
        rw [Nat.mul_succ]; omega, ih, List.getElem?_cons_succ]

/-- Formats B and BD from slots to BUF: image `j` is that of slot `p + j`, and no other byte changes (R231). -/
theorem storesImages_slotsToBuf {c : Instr} {s : State} {v : Bool} {p : SlotNo} {addr : BufAddr} {d : Nat}
    {f : Poly → List Byte} {a : Nat → Poly} {value : Nat → Nat → Nat} (hwf : c.wellFormed s.build.k = true)
    (hc : effectOf c = slotsToBuf f v p addr) (hf : ∀ q, (f q).length = 32 * d) (ha : SlotsHold s p.toNat (s.count v) a)
    (hbit : ∀ j, ∀ i < 256, ∀ u < d,
      ((f (a j)).getD ((d * i + u) / 8) 0).getLsbD ((d * i + u) % 8) = (value j i).testBit u) :
    StoresImages c s addr.toNat (s.count v) d value := by
  have heffect : effectOf c s = some { s with
      buf := writeImages s.buf addr.toNat (((List.range (s.count v)).map a).map f) } := by
    rw [hc]
    exact slotsToBuf_eq_some.mpr ⟨_, readSlots_of_reads ha, rfl⟩
  have hlen : (((List.range (s.count v)).map a).map f).flatten.length = s.count v * (32 * d) := by
    rw [flatten_map_length hf, List.length_map, List.length_range]
  refine ⟨_, exec_eq_next.mpr ⟨hwf, _, heffect, rfl⟩, rfl, fun y hy => ?_, fun j hj i hi u hu => ?_⟩
  · rw [complete_buf, read_writeImages, hlen, if_neg hy]
  · have hbyte : (d * i + u) / 8 < 32 * d := by
      have : d * i + u < 256 * d := by nlinarith
      omega
    have hplace : 32 * d * j + (d * i + u) / 8 < s.count v * (32 * d) := by nlinarith
    have himage : (f (a j))[(d * i + u) / 8]? = some ((f (a j)).getD ((d * i + u) / 8) 0) := by
      rw [List.getD_eq_getElem?_getD, List.getElem?_eq_getElem (by rwa [hf]), Option.getD_some]
    refine ⟨_, ?_, hbit j i hi u hu⟩
    rw [complete_buf, read_writeImages, hlen, Nat.add_assoc, if_pos (by omega), Nat.add_sub_cancel_left,
      getElem?_flatten_map hf _ _ hbyte, ← himage]
    simp [hj]

/-- A command that maps a function over each source polynomial and packs the results in `d` bits each (R66). -/
theorem storesImages_packBits {c : Instr} {s : State} {v : Bool} {p : SlotNo} {addr : BufAddr} {d : Nat}
    {g : Coef → Coef} {a : Nat → Poly} {value : Nat → Nat → Nat} (hwf : c.wellFormed s.build.k = true)
    (hd1 : 1 ≤ d) (hd12 : d ≤ 12) (hc : effectOf c = slotsToBuf (fun q => packBits d (mapVec g q)) v p addr)
    (ha : SlotsHold s p.toNat (s.count v) a) (hvalue : ∀ j i, value j i = (g (get (a j) i)).toNat) :
    StoresImages c s addr.toNat (s.count v) d value := by
  refine storesImages_slotsToBuf hwf hc (fun q => packBits_length d _) ha fun j i hi u hu => ?_
  rw [((bitStreamPacking d hd1 hd12).1 _).2 i hi u hu, get_mapVec g _ hi, hvalue, BitVec.testBit_toNat]

/-- Settles O32: PACK12's effect packs BARRETT of every coefficient, which is its residue. -/
theorem pack12StoresResidues : Obligations.Pack12StoresResidues := by
  unfold Obligations.Pack12StoresResidues
  intro v p addr s a hwf ha
  refine storesImages_packBits (g := barrett) hwf (by decide) (by decide) rfl ha fun j i => ?_
  rw [coefAt_eq_toInt_get, ← toNat_barrett, Int.toNat_natCast]

/-- Check 4 of R252 is part of well-formedness. -/
theorem Instr.widthLegal_of_wellFormed {k : BitVec 4} {i : Instr} (h : i.wellFormed k = true) : widthLegal i = true := by
  obtain ⟨⟨hwidth, -⟩, -⟩ : (widthLegal i = true ∧ slotsFit k i = true) ∧ bufFits k i = true := by
    simpa [Instr.wellFormed] using h
  exact hwidth

/-- The width of a legal compression command (R84). -/
theorem legalWidth_of_dLegal {d : Width} (h : dLegal .bd d = true) : LegalWidth d.toNat := by
  simpa [dLegal, LegalWidth] using h

/-- Settles O34: COMPRESS's effect packs COMPRESS_d of every coefficient, which is R197's formula. -/
theorem compressStoresRoundings : Obligations.CompressStoresRoundings := by
  unfold Obligations.CompressStoresRoundings
  intro v p d addr s a hwf ha
  have hd : LegalWidth d.toNat := legalWidth_of_dLegal (Instr.widthLegal_of_wellFormed hwf)
  refine storesImages_packBits (g := compressCoef d.toNat) hwf hd.1 (hd.2.trans (by decide)) rfl ha fun j i => ?_
  rw [coefAt_eq_toInt_get, ← (compressRounding d.toNat (get (a j) i) hd).1, Int.toNat_natCast]

/-! ## The form from BUF to slots (R231) -/

/-- Value `i` of the unpacked image `j` has its field's bits, at the place R66 gives them. -/
theorem get_unpackBits_imageAt (b : Nat → Byte) {d i : Nat} (hd : d ≤ 12) (hi : i < 256) (j : Nat) :
    (get (unpackBits d (imageAt b (32 * d) j)) i).toNat < 2 ^ d ∧
      ∀ u < d, (get (unpackBits d (imageAt b (32 * d) j)) i).getLsbD u = imageBit b d j i u := by
  obtain ⟨hlt, hbits⟩ := get_unpackBits hd hi (imageAt b (32 * d) j)
  refine ⟨hlt, fun u hu => ?_⟩
  have hplace : d * i + u < 256 * d := by nlinarith
  rw [hbits u hu, getD_imageAt b (by omega), imageBit]

/-- Settles O33: UNPACK12's effect unpacks every image. -/
theorem unpack12ReturnsFields : Obligations.Unpack12ReturnsFields := by
  unfold Obligations.Unpack12ReturnsFields
  exact fun v p addr s b hwf hb => writesSlots_bufToSlots hwf List.mem_cons_self rfl hb fun j i hi =>
    get_unpackBits_imageAt b (by decide) hi j

/-- Settles O35: DECOMPRESS's effect unpacks every image and takes DECOMPRESS_d of every field. -/
theorem decompressWritesRoundings : Obligations.DecompressWritesRoundings := by
  unfold Obligations.DecompressWritesRoundings
  intro v p d addr s b hwf hb
  have hd : LegalWidth d.toNat := legalWidth_of_dLegal (Instr.widthLegal_of_wellFormed hwf)
  refine writesSlots_bufToSlots hwf List.mem_cons_self rfl hb fun j i hi => ?_
  obtain ⟨hlt, hbits⟩ := get_unpackBits_imageAt b (hd.2.trans (by decide)) hi j
  refine ⟨_, hlt, fun u hu => hbits u hu, ?_⟩
  rw [decompressPoly, get_mapVec _ _ hi, (decompressRounding d.toNat _ hd hlt).1]

end Sys2Proof.Machine
end

section
/-! SUPPORT. The inner product (spec/44_polyvec.md R233): its 16-bit accumulation as one sum that wraps once, and the
completion step of a command that writes one slot. -/

namespace Sys2Proof.Machine

open Sys2Proof.Claims

@[simp] theorem coefAt_zeroPoly (i : Nat) : coefAt zeroPoly i = 0 := by
  by_cases hi : i < 256 <;> simp [coefAt, zeroPoly, hi]

/-- A stored coefficient is its own 16-bit wrap (R12). -/
theorem coefAt_bmod (p : Poly) (i : Nat) : (coefAt p i).bmod (2 ^ 16) = coefAt p i :=
  BitVec.toInt_bmod_cancel _

/-- Wrapping after every product is wrapping once at the end, from any accumulator. -/
theorem coefAt_dotAcc (a b : Nat → Poly) (l : List Nat) (acc : Poly) {i : Nat} (hi : i < 256) :
    coefAt (dotAcc acc (l.map a) (l.map b)) i =
      (coefAt acc i + (l.map fun j => coefAt (basemulRaw (a j) (b j)) i).sum).bmod (2 ^ 16) := by
  induction l generalizing acc with
  | nil => simpa [dotAcc] using (coefAt_bmod acc i).symm
  | cons j l ih =>
    rw [List.map_cons, List.map_cons, dotAcc, ih, coefAt_addPoly _ _ hi, Int.bmod_add_bmod, List.map_cons,
      List.sum_cons, Int.add_assoc]

theorem coefAt_dotPoly (a b : Nat → Poly) (l : List Nat) {i : Nat} (hi : i < 256) :
    coefAt (dotPoly (l.map a) (l.map b)) i =
      ((l.map fun j => coefAt (basemulRaw (a j) (b j)) i).sum).bmod (2 ^ 16) % 3329 := by
  rw [dotPoly, coefAt_reducePoly _ hi, coefAt_dotAcc a b l zeroPoly hi, coefAt_zeroPoly, Int.zero_add]

/-- A command whose effect is to write one polynomial to the slot a field names. Every slot number names a slot, so no
range check is needed (R20, R232). -/
theorem writesSlots_one {i : Instr} {s : State} {rd : SlotNo} {p : Poly} {result : Nat → Poly → Prop}
    (hwf : i.wellFormed s.build.k = true)
    (heffect : effectOf i s = some { s with slots := SlotFile.writeSlot s.slots rd.toNat (SlotData.ofPoly p) })
    (hresult : result 0 p) : WritesSlots i s rd.toNat 1 result := by
  have hrd : rd.toNat < 32 := rd.isLt
  refine ⟨_, exec_eq_next.mpr ⟨hwf, _, heffect, rfl⟩, rfl, fun x hx => ?_, fun j hj => ?_⟩
  · rw [complete_slots, SlotFile.getElem?_writeSlot, if_neg (by omega)]
  · obtain rfl : j = 0 := by omega
    refine ⟨p, ?_, hresult⟩
    rw [complete_slots, SlotFile.readPoly_eq_some, Nat.add_zero, SlotFile.getElem?_writeSlot, if_pos ⟨rfl, hrd⟩]

/-- Settles O25: PVDOT's effect reads all 2K sources whole, and its accumulation is the wrapped sum of their products. -/
theorem pvdotSumsProducts : Obligations.PvdotSumsProducts := by
  unfold Obligations.PvdotSumsProducts
  intro rd rs1 rs2 s a b hwf ha hb
  have heffect : effectOf (.pvdot rd rs1 rs2) s = some _ :=
    dotOp_eq_some.mpr ⟨_, _, readSlots_of_reads ha, readSlots_of_reads hb, rfl⟩
  exact writesSlots_one hwf heffect fun i hi => coefAt_dotPoly a b (List.range s.build.k.toNat) hi

end Sys2Proof.Machine
end

section
/-! SUPPORT. Errors and the order of events (spec/60_exceptions.md R251 to R258): the record of the first error, the
checks of a CMD write on the raw bits of its word, and which part of the machine an event runs. -/

namespace Sys2Proof.Machine

open Sys2Proof.Claims

/-! ## The first error is kept (R253) -/

theorem raiseError_of_clear {s : State} (h : s.err = false) (e : CmdError) (info : Word) :
    raiseError e info s = { s with err := true, errCode := errorCode e, errInfo := info } := by
  rw [raiseError, if_neg (by simp [h])]

theorem raiseError_of_err {s : State} (h : s.err = true) (e : CmdError) (info : Word) : raiseError e info s = s := by
  rw [raiseError, if_pos h]

/-- Settles O49: the two cases of `raiseError`, and the table of `errorCode`. -/
theorem firstErrorKept : Obligations.FirstErrorKept := by
  unfold Obligations.FirstErrorKept
  exact ⟨fun e info _ h => raiseError_of_clear h e info, fun e info _ h => raiseError_of_err h e info, rfl⟩

/-! ## The step an event makes (R258, R301) -/

theorem engineStep_of_decode {s : State} {w : Word} {i : Instr} (hw : s.inFlight = some w) (hi : decode w = .ok i) :
    engineStep s = exec i s := by
  rw [engineStep, fetch, hw, Option.map_some, hi]

theorem engineStep_of_idle {s : State} (h : s.inFlight = none) : engineStep s = .next s :=
  engineStep_eq_next.mpr (.inl ⟨h, rfl⟩)

theorem step_of_noEvents {s : State} (h : s.events = []) : step s = engineStep s := by
  rw [step, h]

theorem step_of_complete {s : State} {rest : List Event} (h : s.events = .complete :: rest) :
    step s = engineStep { s with events := rest } := by
  rw [step, h]

theorem step_of_transaction {s : State} {t : Transaction} {rest : List Event}
    (h : s.events = .transaction t :: rest) : step s = transact t { s with events := rest } := by
  rw [step, h]

/-- Settles O6: the engine's turn is the decoded command's step, or nothing when it is idle; a transaction event is that
transaction. -/
theorem stepRunsDecodedCommand : Obligations.StepRunsDecodedCommand := by
  unfold Obligations.StepRunsDecodedCommand
  refine ⟨fun s w i hw hi => ⟨fun h => ?_, fun rest h => ?_⟩, fun s hidle => ⟨fun h => ?_, fun rest h => ?_⟩,
    fun s t rest h => step_of_transaction h⟩
  · exact (step_of_noEvents h).trans (engineStep_of_decode hw hi)
  · exact (step_of_complete h).trans (engineStep_of_decode hw hi)
  · exact (step_of_noEvents h).trans (engineStep_of_idle hidle)
  · exact (step_of_complete h).trans (engineStep_of_idle hidle)

/-! ## The number of the first failing check (R252) -/

/-- The number R251 gives to the answer of the checks of a CMD write, 0 for a word that passes them. -/
def checkNumber : Except CmdError Instr → Nat
  | .ok _ => 0
  | .error e => (errorCode e).toNat

theorem checkNumber_of_unassigned {w : Word} (h : formatOf (opcField w) = none) (k : BitVec 4) :
    checkNumber (issueCheck k w) = 1 := by
  simp [issueCheck, decode, h, checkNumber, errorCode]

/-- The checks 2 to 6 in their order, on an assigned opcode. -/
theorem checkNumber_of_assigned {w : Word} {f : Format} {i : Instr} (hf : formatOf (opcField w) = some f)
    (hi : assemble w = some i) (k : BitVec 4) :
    checkNumber (issueCheck k w) =
      if vField w = true ∧ vLegal (opcField w) = false then 2
      else if w &&& reservedMask f ≠ 0 then 3
      else if dLegal f (dField w) = false then 4
      else if slotsFit k i = false then 5
      else if bufFits k i = false then 6
      else 0 := by
  unfold issueCheck decode
  simp only [hf, hi, Bool.not_eq_true', Bool.and_eq_true]
  split_ifs <;> simp_all [checkNumber, errorCode]

/-! ## The fields of a word as R252's pseudocode reads them -/

theorem bits_opc (w : Word) : bits w 26 6 = (opcField w).toNat := bits_eq_toNat w 26 6

theorem bits_v (w : Word) : bits w 25 1 = (vField w).toNat := by
  rw [bits_eq_toNat, extractLsb'_eq_ofBool.mpr rfl, BitVec.toNat_ofBool]

theorem bits_rd (w : Word) : bits w 20 5 = (rdField w).toNat := bits_eq_toNat w 20 5

theorem bits_rs1 (w : Word) : bits w 15 5 = (rs1Field w).toNat := bits_eq_toNat w 15 5

theorem bits_rs2 (w : Word) : bits w 10 5 = (rs2Field w).toNat := bits_eq_toNat w 10 5

theorem bits_d (w : Word) : bits w 16 4 = (dField w).toNat := bits_eq_toNat w 16 4

theorem bits_addr (w : Word) : bits w 0 12 = (addrField w).toNat := bits_eq_toNat w 0 12

theorem bits_eq_zero {w : Word} {lo n : Nat} : bits w lo n = 0 ↔ w.extractLsb' lo n = 0 := by
  rw [bits_eq_toNat, ← BitVec.toNat_inj]
  rfl

theorem bits_reserved_s {w : Word} : bits w 0 25 = 0 ↔ w &&& reservedMask .s = 0 := bits_eq_zero.trans reserved_s.symm

theorem bits_reserved_p3 {w : Word} : bits w 0 10 = 0 ↔ w &&& reservedMask .p3 = 0 :=
  bits_eq_zero.trans reserved_p3.symm

theorem bits_reserved_p2 {w : Word} : bits w 0 15 = 0 ↔ w &&& reservedMask .p2 = 0 :=
  bits_eq_zero.trans reserved_p2.symm

theorem bits_reserved_b {w : Word} : bits w 12 4 = 0 ↔ w &&& reservedMask .b = 0 := bits_eq_zero.trans reserved_b.symm

/-! ## The checks 4 to 6 where they fail -/

theorem dLegal_eq_false {f : Format} {d : Width} :
    dLegal f d = false ↔ (f = .b ∧ d.toNat ≠ 0) ∨ (f = .bd ∧ (d.toNat = 0 ∨ 11 < d.toNat)) := by
  revert d
  cases f <;> decide

theorem slotsFit_eq_false {k : BitVec 4} {i : Instr} :
    slotsFit k i = false ↔ ((slotRanges k i).any fun r => 32 < r.1 + r.2) = true := by
  simp [slotsFit, Config.numSlots]

theorem bufFits_eq_false {k : BitVec 4} {i : Instr} :
    bufFits k i = false ↔ ((bufRange k i).any fun r => 4096 < r.1 + r.2) = true := by
  unfold bufFits
  cases bufRange k i <;> simp [Config.bufBytes]

/-! ## The pseudocode of R252 is the model's check -/

theorem opcode_of_unassigned : ∀ opc : BitVec 6, formatOf opc = none →
    opc.toNat ∉ [0x00, 0x01, 0x02, 0x03, 0x04, 0x08, 0x09, 0x0A, 0x0B, 0x0C, 0x10, 0x11, 0x12, 0x13, 0x14, 0x18, 0x19,
      0x1A, 0x1B, 0x1C] := by
  decide

theorem firstError_of_unassigned {w : Word} (h : formatOf (opcField w) = none) (k : Nat) : firstError k w = 1 := by
  have hopc := opcode_of_unassigned _ h
  simp only [List.mem_cons, List.not_mem_nil, or_false, not_or] at hopc
  simp [firstError, bits_opc, hopc]

/-- On each assigned opcode the pseudocode reads the fields its format has, and every check is the model's. -/
theorem firstError_of_assigned {w : Word} {f : Format} {i : Instr} (hf : formatOf (opcField w) = some f)
    (hi : assemble w = some i) (k : BitVec 4) : firstError k.toNat w = checkNumber (issueCheck k w) := by
  rw [checkNumber_of_assigned hf hi]
  unfold assemble at hi
  split at hi
  all_goals cases hi
  all_goals next hopc =>
    obtain ⟨-, hopc⟩ := BitVec.toNat_eq_nat.mp hopc
    obtain rfl : _ = f := by simpa [hopc, formatOf] using hf
    simp [firstError, hopc, vLegal, dLegal_eq_false, slotsFit_eq_false, bufFits_eq_false, slotRanges, bufRange,
      repeatCount, imageBytes, bits_opc, bits_v, bits_rd, bits_rs1, bits_rs2, bits_d, bits_addr, bits_reserved_s,
      bits_reserved_p3, bits_reserved_p2, bits_reserved_b]

theorem firstError_eq_checkNumber (k : BitVec 4) (w : Word) : firstError k.toNat w = checkNumber (issueCheck k w) := by
  cases hf : formatOf (opcField w) with
  | none => rw [firstError_of_unassigned hf, checkNumber_of_unassigned hf]
  | some f =>
    obtain ⟨i, hi⟩ := Option.isSome_iff_exists.mp ((assemble_isSome w).trans (by rw [hf]; rfl))
    exact firstError_of_assigned hf hi k

/-! ## A CMD write while BUSY = 0 (R252, R300) -/

theorem errorCode_ne_zero (e : CmdError) : (errorCode e).toNat ≠ 0 := by
  have := errorCode_range e
  omega

/-- Settles O5: `firstError` is the number of the check's answer, so the write is accepted where it is 0 and records
that error elsewhere. -/
theorem cmdWriteChecksInOrder : Obligations.CmdWriteChecksInOrder := by
  unfold Obligations.CmdWriteChecksInOrder
  intro s w hidle
  rw [hostWrite_register (r := .cmd) w s rfl rfl, writeRegister, firstError_eq_checkNumber]
  obtain ⟨hbusy, -⟩ | ⟨-, i, hcheck, hw⟩ | ⟨-, e, hcheck, hw⟩ := writeCmd_cases w s
  · simp [hidle] at hbusy
  · rw [hw, hcheck]
    rfl
  · simp [hw, hcheck, checkNumber, errorCode_ne_zero, raiseError]

end Sys2Proof.Machine
end

section
/-! SUPPORT. What a host write can change while a command is in flight, and what a soft reset makes of the block
(spec/70_reset_and_hazards.md R292, R293, R301, R304). -/

namespace Sys2Proof.Machine

open Sys2Proof.Claims

/-! ## Writes while BUSY = 1 (R72, R304) -/

/-- From `s` to `t` only the interrupt enables and the fields of STATUS and ERRINFO changed. -/
def OnlyFlagsChange (s t : State) : Prop :=
  t = { s with
    ieDone := t.ieDone, ieErr := t.ieErr, done := t.done, err := t.err, errCode := t.errCode, errInfo := t.errInfo }

theorem OnlyFlagsChange.refl (s : State) : OnlyFlagsChange s s := rfl

theorem raiseError_onlyFlags (e : CmdError) (info : Word) (s : State) : OnlyFlagsChange s (raiseError e info s) := by
  unfold raiseError
  split
  · exact .refl s
  · rfl

/-- A register that R72 does not block while BUSY = 1 is no input of the command in flight. -/
theorem writeRegister_onlyFlags {r : Register} {v : Word} {s : State} (hbusy : s.busy = true)
    (hopen : blockedWhileBusy (.register r) = false) (hsoft : r = .ctrl → v.getLsbD 31 = false) :
    OnlyFlagsChange s (writeRegister r v s) := by
  cases r with
  | ctrl =>
    rw [writeRegister, writeCtrl_eq (hsoft rfl)]
    rfl
  | status =>
    rw [writeRegister, writeStatus_eq]
    rfl
  | cmd =>
    rw [writeRegister, writeCmd, if_pos hbusy]
    exact raiseError_onlyFlags _ _ s
  | sa => exact nomatch hopen
  | sb => exact nomatch hopen
  | id | param | errInfo | sr | cmdCount => exact .refl s

/-- R72 blocks the data windows, so a write that gets through while BUSY = 1 is one of a register. -/
theorem hostWrite_onlyFlags {off : Nat} {v : Word} {s : State} (hbusy : s.busy = true)
    (hsoft : off = 0x008 → v.getLsbD 31 = false) : OnlyFlagsChange s (hostWrite off v s) := by
  obtain ⟨-, hw⟩ | ⟨hfree, hw⟩ := hostWrite_cases off v s <;> rw [hw]
  · exact raiseError_onlyFlags _ _ s
  · rw [hbusy, Bool.true_and] at hfree
    generalize hg : regionAt off = g at hfree ⊢
    cases g with
    | register r => exact writeRegister_onlyFlags hbusy hfree fun hr => hsoft (regionAt_eq_ctrl.mp (hr ▸ hg))
    | bufWord w => exact nomatch hfree
    | polyWord r i => exact nomatch hfree
    | reserved => exact .refl s

/-- Settles O52: such a write changes the flags alone, and none of them is an input of a command. -/
theorem busyKeepsInputs : Obligations.BusyKeepsInputs := by
  unfold Obligations.BusyKeepsInputs
  intro s off v hbusy _ hsoft
  have hflags : OnlyFlagsChange s (hostWrite off v s) :=
    hostWrite_onlyFlags hbusy fun hoff => Bool.eq_false_of_not_eq_true fun hv => hsoft ⟨hoff, hv⟩
  rw [hflags]
  exact ⟨rfl, rfl, rfl, rfl, rfl, rfl, rfl, rfl, rfl⟩

/-! ## What an abort makes of the block (R293) -/

theorem abort_of_idle {s : State} (h : s.busy = false) : abort s = s := by
  have hnone : s.inFlight = none := by simpa [State.busy] using h
  have habort : abort s = { s with inFlight := none } := by
    rw [abort, fetch, hnone]
    rfl
  rw [habort, ← hnone]

theorem abort_of_decode {s : State} {w : Word} {i : Instr} (hw : s.inFlight = some w) (hi : decode w = .ok i) :
    abort s = loseDestinations i { s with inFlight := none } := by
  rw [abort, fetch, hw, Option.map_some, hi]

theorem Memory.unspecify_zero (m : Memory) (a : Nat) : Memory.unspecify m a 0 = m := by
  refine List.filter_eq_self.mpr fun c _ => ?_
  simp
  omega

/-- A command without slot destinations loses the empty range. -/
theorem loseDestinations_slots (i : Instr) (s : State) :
    (loseDestinations i s).slots =
      SlotFile.unspecify s.slots (lostSlots s.build.k i).1 (lostSlots s.build.k i).2 := by
  cases i <;> rfl

/-- A command without destinations in BUF loses the empty range. -/
theorem loseDestinations_buf (i : Instr) (s : State) :
    (loseDestinations i s).buf =
      Memory.unspecify s.buf (lostBytes s.build.k i).1 (lostBytes s.build.k i).2 := by
  cases i with
  | pack12 v p a => rfl
  | compress v p d a => rfl
  | _ => exact (Memory.unspecify_zero s.buf 0).symm

/-! ## The soft reset (R292, R293) -/

/-- Settles O54: beside the slots and BUF of the abort a soft reset leaves the registers of a power-on reset, and on an
idle block there is nothing to abort. -/
theorem softResetClearsRegisters : Obligations.SoftResetClearsRegisters := by
  unfold Obligations.SoftResetClearsRegisters
  intro s v hv
  rw [hostWrite_softReset hv, softReset_frame]
  refine ⟨rfl, rfl, rfl, rfl, rfl, rfl, rfl, rfl, rfl, rfl, rfl, rfl, rfl, rfl, fun hidle => ?_⟩
  rw [abort_of_idle hidle]
  exact ⟨rfl, rfl⟩

/-- Settles O55: the slots and BUF after the reset are those of the abort, which makes one range of each unspecified. -/
theorem abortLosesDestinations : Obligations.AbortLosesDestinations := by
  unfold Obligations.AbortLosesDestinations
  intro s v w i hv hw hcheck
  have habort := abort_of_decode hw (issueCheck_eq_ok.mp hcheck).1
  rw [hostWrite_softReset hv, softReset_frame, habort, loseDestinations_slots, loseDestinations_buf]
  refine ⟨fun r hr => ?_, fun x => Memory.read_unspecify ..⟩
  simp only [SlotFile.getElem?_unspecify, hr, and_true]

end Sys2Proof.Machine
end
